-- ==== Sys2Proof/Word.lean ====
section
/-! DEFINITION. The words of the block: their widths are those of R7 and R12 (00_scope.md). -/

namespace Sys2Proof

/-- A register word as the host's bus carries it (R34, 20_memory.md). -/
abbrev Word32 := BitVec 32

/-- A symbol code, SYM_W = 5 bits (R8, 00_scope.md). Codes 26 to 31 are codes like any other. -/
abbrev Sym := BitVec 5

/-- A key-entry register, and the KEYLEN register: 8 bits (R7, 00_scope.md). -/
abbrev KeyWord := BitVec 8

/-- A length register, LEN or OUTLEN: 16 bits (R7, 00_scope.md). -/
abbrev LenWord := BitVec 16

/-- The STATUS.ERR field: 4 bits (R17, 10_state.md). -/
abbrev ErrCode := BitVec 4

end Sys2Proof
end

