-- ==== Sys2Proof/Config.lean ====
section
/-! DEFINITION. The build and platform parameters of R6 (00_scope.md) and D31 (92_eei_decisions.md).
A model takes them as arguments: they are data here, a machine carries them beside its block, and a claim
about every state holds for every value of them (log 2). -/

namespace Sys2Proof

/-- The parameters the spec leaves OPEN (R6, 00_scope.md; section 2 of 93_implementation_defined.md). -/
structure Config where
  /-- N_MAX, the largest key length the block accepts (D3). -/
  nMax : Nat
  /-- L_MAX, the capacity of IN and OUT in symbols (D4). -/
  lMax : Nat
  /-- BASE, the bus address of the register window (D5). -/
  base : Nat
  /-- LAT, the time from a CMD write to its response (D12). No rule reads it (R91). -/
  lat : Nat
  /-- RESET_RESP: whether a CMD write that a reset abandons gets a response, which the host must
  discard (R83; D31). -/
  resetResp : Bool
deriving DecidableEq, Repr

/-- SYM_W, the width of a symbol code in bits: fixed (R6, 00_scope.md). -/
def Config.symW : Nat := 5

/-- The size of the register window in bytes (R31, 20_memory.md). -/
def Config.windowBytes : Nat := 0x4000

/-- The parameters of the machine that `State.reset` describes: N_MAX and L_MAX as the spec's test
vectors assume them (95_test_vectors.md); the others are a DESIGN CHOICE (log 2). -/
def Config.testVectors : Config :=
  { nMax := 16, lMax := 256, base := 0, lat := 1, resetResp := false }

end Sys2Proof
end

