-- ==== Sys2Proof/Syntax.lean ====
section
/-! DEFINITION. The block's commands: one constructor per row of spec/opcode_table.json (R46, 30_encoding.md). -/

namespace Sys2Proof

/-- The two legal commands (R46, 30_encoding.md). A command word carries no operand (R48): every operand
comes from the block's registers. -/
inductive Instr where
  /-- ENCODE, word 0x0000_0001 (R60, 40_permute.md). -/
  | encode
  /-- DECODE, word 0x0000_0002 (R61, 40_permute.md). -/
  | decode
deriving DecidableEq, Repr

end Sys2Proof
end

