-- ==== Sys2Proof/WellFormed.lean ====
section
/-! DEFINITION. Well-formedness of commands and of the build parameters. -/

namespace Sys2Proof

/-- A command carries no operand, immediate or register field (R48, 30_encoding.md), so there is no
field to check: each of the two commands is well-formed. -/
def Instr.wf : Instr → Bool
  | .encode => true
  | .decode => true

/-- The ranges of the build parameters (R6, 00_scope.md): 1 ≤ N_MAX ≤ 64, 1 ≤ L_MAX ≤ 1024, and BASE a
multiple of the window's size (R31, 20_memory.md). -/
abbrev Config.Wf (c : Config) : Prop :=
  1 ≤ c.nMax ∧ c.nMax ≤ 64 ∧ 1 ≤ c.lMax ∧ c.lMax ≤ 1024 ∧ c.base % Config.windowBytes = 0

end Sys2Proof
end

