-- ==== Sys2Proof/Decode.lean ====
section
/-! DEFINITION. The command decoder (R45 to R47, 30_encoding.md), total on any word and on any bytes, which
rejects by name; and after it the encoder, written from the same table (R46). -/

namespace Sys2Proof

/-- Why a word is no command (R47, 30_encoding.md), or why bytes are no command word (R45: there is no
other length). -/
inductive DecodeError where
  /-- Bits 31:2 are not zero. -/
  | nonzeroZ (z : BitVec 30)
  /-- Bits 31:2 are zero and OP is 0b00 or 0b11. -/
  | illegalOp (op : BitVec 2)
  /-- Not four bytes. -/
  | wrongLength (bytes : Nat)
deriving DecidableEq, Repr

/-- OP, bits 1:0 of a command word (R45). -/
def opField (w : Word32) : BitVec 2 := w.extractLsb' 0 2

/-- Z, bits 31:2 of a command word (R45). -/
def zField (w : Word32) : BitVec 30 := w.extractLsb' 2 30

/-- A command word's instruction. All 32 bits are examined (R45); every word but the two of R46 is
rejected (R47). -/
def decodeWord (w : Word32) : Except DecodeError Instr :=
  if zField w ≠ 0#30 then .error (.nonzeroZ (zField w))
  else if opField w = 0b01#2 then .ok .encode
  else if opField w = 0b10#2 then .ok .decode
  else .error (.illegalOp (opField w))

/-- The word on the bus's four byte lanes: lane k carries bits 8k+7:8k (R36, 20_memory.md). -/
def wordOfLanes (lane0 lane1 lane2 lane3 : BitVec 8) : Word32 := lane3 ++ lane2 ++ lane1 ++ lane0

/-- The byte lanes of a word, lane 0 first (R36, 20_memory.md). -/
def lanesOfWord (w : Word32) : List (BitVec 8) :=
  [w.extractLsb' 0 8, w.extractLsb' 8 8, w.extractLsb' 16 8, w.extractLsb' 24 8]

/-- The decoder on bytes, lane 0 first. A command has four bytes (R45). -/
def decodeBytes : List (BitVec 8) → Except DecodeError Instr
  | [b0, b1, b2, b3] => decodeWord (wordOfLanes b0 b1 b2 b3)
  | bs => .error (.wrongLength bs.length)

/-- A command's word, its two fields from the opcode map: Z = 0 and OP (R45, R46). -/
def encodeWord : Instr → Word32
  | .encode => 0#30 ++ 0b01#2
  | .decode => 0#30 ++ 0b10#2

/-- A command's bytes, lane 0 first (R36). -/
def encodeBytes (i : Instr) : List (BitVec 8) := lanesOfWord (encodeWord i)

/-- The low `nbits` bits of `w`, as a bus word. -/
def tableWord (nbits w : Nat) : Word32 := BitVec.ofNat 32 (w % 2 ^ nbits)

/-- The instruction the decoder reads from a row of spec/opcode_table.json: the row's one 32-bit word is
laid out on the byte lanes and decoded. Bits above the command word's 32 have no place in the format (R45). -/
def decodeTableWord (nbits w : Nat) : Option Instr :=
  if w % 2 ^ nbits < 2 ^ 32 then (decodeBytes (lanesOfWord (tableWord nbits w))).toOption else none

end Sys2Proof
end

