-- ==== Sys2Proof/Machine/State.lean ====
section
/-! DEFINITION. The machine's state as plain data: the block's architectural state (R15, 10_state.md), the
configuration (R6, 00_scope.md), and the host's side of the bus (log 1). -/

namespace Sys2Proof.Machine

/-- Why a host access, or the machine, stops. -/
inductive Fault where
  /-- `raise BusError(addr)` (R33, 20_memory.md): raised by a host access of the wrong width, misaligned, at
  a reserved offset or outside the window, or by a write to a read-only register. It faults the host's
  ACCESS, which gets no data; the block's state is unchanged and the machine goes on with the host's next
  access (P5 of 95_test_vectors.md; log 4). Safe. -/
  | busError (addr : Nat)
  /-- Raised by a reset while a CMD write is outstanding (R83, 70_reset_and_hazards.md): the write never
  completed. `responded` says whether the bus gave a response that the host must discard (RESET_RESP).
  It faults the host's ACCESS; the machine goes on in the reset state (log 5). Safe. -/
  | abandonedByReset (responded : Bool)
deriving DecidableEq, Repr

/-- Why the machine gives no meaning. -/
inductive Refusal where
  /-- An instruction without a meaning, raised in exec's arm for it only; no arm raises it now. Safe. -/
  | notModelled (mnemonic : String)
  /-- Raised by a host read of STATUS while STATUS.ERR is 5 to 15, a code that is never produced: the
  spec has such a read refused (O3, 93_implementation_defined.md; log 6). Safe. -/
  | reservedErrCode (code : ErrCode)
deriving DecidableEq, Repr

/-- One host bus access: its byte address, its width in bytes and its byte-lane enables (R33, R34,
20_memory.md). The legal form has width 4 and all four lanes on. -/
structure Access where
  addr  : Nat
  width : Nat
  lanes : BitVec 4
deriving DecidableEq, Repr

/-- What the host does next to the block (section 4 of 20_memory.md; R82, R83 of 70_reset_and_hazards.md). -/
inductive HostEvent where
  /-- A bus read. -/
  | read (a : Access)
  /-- A bus write with `data` on data bits 31:0. -/
  | write (a : Access) (data : Word32)
  /-- Reset asserted and released, no access outstanding (R82). -/
  | reset
  /-- Reset while the CMD write of `word` is outstanding (R83). -/
  | resetDuringCmd (word : Word32)
deriving DecidableEq, Repr

/-- How a host access ended. -/
inductive Response where
  /-- A read's 32-bit word (R37, 20_memory.md). -/
  | data (word : Word32)
  /-- A write completed (R38, R40, 20_memory.md). -/
  | written
  /-- The access faulted: no data, and no completion (R33, R83). -/
  | fault (reason : Fault)
deriving DecidableEq, Repr

/-- The block's complete architectural state: exactly the record of R15 (10_state.md). `inp` is IN. -/
structure Block where
  /-- STATUS.DONE -/
  done   : Bool
  /-- STATUS.ERR -/
  err    : ErrCode
  keylen : KeyWord
  len    : LenWord
  outlen : LenWord
  /-- KEY[0 … N_MAX−1] -/
  key    : List KeyWord
  /-- IN[0 … L_MAX−1] -/
  inp    : List Sym
  /-- OUT[0 … L_MAX−1] -/
  out    : List Sym
deriving DecidableEq, Repr

/-- The block, its parameters (which no step changes), and the host's side of the bus: what the host does
next and the responses it has received, both oldest first (the model's own fields, log 1). -/
structure State where
  cfg       : Config
  blk       : Block
  pending   : List HostEvent
  responses : List Response
deriving DecidableEq, Repr

/-- The block right after reset, whatever its parameters: every element is 0 (R29, 10_state.md). -/
def Block.atReset (c : Config) : Block :=
  { done := false, err := 0#4, keylen := 0#8, len := 0#16, outlen := 0#16
    key := List.replicate c.nMax 0#8, inp := List.replicate c.lMax 0#5, out := List.replicate c.lMax 0#5 }

/-- A machine with the parameters `c`, right after reset, whose host has done nothing yet. -/
def State.atReset (c : Config) : State :=
  { cfg := c, blk := Block.atReset c, pending := [], responses := [] }

/-- The machine right after reset (R29, 10_state.md), with the test vectors' parameters (log 2). -/
def State.reset : State := State.atReset Config.testVectors

/-- The arrays have the counts of R15 (10_state.md): N_MAX key entries, L_MAX symbols in IN and in OUT. -/
abbrev Block.Sized (c : Config) (b : Block) : Prop :=
  b.key.length = c.nMax ∧ b.inp.length = c.lMax ∧ b.out.length = c.lMax

/-- The machine is of the shape the spec gives it: legal parameters (R6) and arrays of the right counts (R15).
(The form every operation keeps; this hardware has no byte memory, log 3.) -/
abbrev State.Wf (s : State) : Prop := s.cfg.Wf ∧ s.blk.Sized s.cfg

/-- The block replaced. -/
def State.withBlk (s : State) (b : Block) : State := { s with blk := b }

/-- A response delivered to the host. -/
def State.respond (s : State) (r : Response) : State := { s with responses := s.responses ++ [r] }

/-- The host's future replaced. -/
def State.withPending (s : State) (es : List HostEvent) : State := { s with pending := es }

end Sys2Proof.Machine
end

