-- ==== Sys2Proof/Machine/AddressMap.lean ====
section
/-! DEFINITION. The register window (R31, R32, 20_memory.md): its registers, their offsets, and which register a
host access addresses. -/

namespace Sys2Proof.Machine

/-- The registers and array elements of the window (R32, 20_memory.md). `inp i` is IN[i]. -/
inductive Reg where
  | cmd
  | status
  | keylen
  | len
  | outlen
  | params
  | key (i : Nat)
  | inp (i : Nat)
  | out (i : Nat)
deriving DecidableEq, Repr

/-- A register's offset from BASE (R32, 20_memory.md; R22 to R24, 10_state.md). -/
def Reg.offset : Reg → Nat
  | .cmd    => 0x0000
  | .status => 0x0004
  | .keylen => 0x0008
  | .len    => 0x000C
  | .outlen => 0x0010
  | .params => 0x0014
  | .key i  => 0x0100 + 4 * i
  | .inp i  => 0x1000 + 4 * i
  | .out i  => 0x2000 + 4 * i

/-- The register exists on a block with the parameters `c`: KEY has N_MAX elements, IN and OUT have L_MAX
(R22 to R24, 10_state.md). -/
def Reg.inRange (c : Config) : Reg → Bool
  | .cmd => true
  | .status => true
  | .keylen => true
  | .len => true
  | .outlen => true
  | .params => true
  | .key i => decide (i < c.nMax)
  | .inp i => decide (i < c.lMax)
  | .out i => decide (i < c.lMax)

/-- The index of the array element at the aligned offset `off`, for an array of `count` words at `start`. -/
def arrayIndex (start count off : Nat) : Option Nat :=
  if start ≤ off ∧ off < start + 4 * count then some ((off - start) / 4) else none

/-- The register at an aligned offset; none where the offset is reserved (R32, 20_memory.md). -/
def regAt (c : Config) (off : Nat) : Option Reg :=
  if off = 0x0000 then some .cmd
  else if off = 0x0004 then some .status
  else if off = 0x0008 then some .keylen
  else if off = 0x000C then some .len
  else if off = 0x0010 then some .outlen
  else if off = 0x0014 then some .params
  else match arrayIndex 0x0100 c.nMax off, arrayIndex 0x1000 c.lMax off, arrayIndex 0x2000 c.lMax off with
    | some i, _, _ => some (.key i)
    | none, some i, _ => some (.inp i)
    | none, none, some i => some (.out i)
    | none, none, none => none

/-- The access has the one legal form: 32 bits with all byte lanes (R34), inside the window (log 7), aligned
(R35, 20_memory.md). -/
abbrev Access.WellFormed (c : Config) (a : Access) : Prop :=
  a.width = 4 ∧ a.lanes = 0b1111#4 ∧ c.base ≤ a.addr ∧ a.addr < c.base + Config.windowBytes ∧
    (a.addr - c.base) % 4 = 0

/-- The register a host access addresses; none where the access is a bus error whatever its direction
(R33 (a) to (c), 20_memory.md). -/
def accessReg (c : Config) (a : Access) : Option Reg :=
  if a.WellFormed c then regAt c (a.addr - c.base) else none

/-- The legal access to a register: 32 bits, all lanes, at BASE + offset (R49, 30_encoding.md). -/
def Reg.access (c : Config) (r : Reg) : Access :=
  { addr := c.base + r.offset, width := 4, lanes := 0b1111#4 }

end Sys2Proof.Machine
end

