-- ==== Sys2Proof/Machine/Operands.lean ====
section
/-! DEFINITION. The operands of a command (R48, 30_encoding.md), all unsigned, and the key predicate
(R52, 40_permute.md). -/

namespace Sys2Proof.Machine

/-- `zext_32` (section 6 of 00_scope.md). -/
def zext32 {n : Nat} (v : BitVec n) : Word32 := v.setWidth 32

/-- `w[n-1:0]`: the field a write stores, reserved bits ignored (R25, 10_state.md). -/
def lowBits (n : Nat) (w : Word32) : BitVec n := w.setWidth n

/-- KEY[c] as a number: the key value of column c (R51, 40_permute.md). -/
def keyVal (key : List KeyWord) (c : Nat) : Nat := (key.getD c 0#8).toNat

/-- The symbol at position p of a sequence. -/
def symAt (xs : List Sym) (p : Nat) : Sym := xs.getD p 0#5

/-- n, the key length a command samples (R48, R59). -/
def Block.n (b : Block) : Nat := b.keylen.toNat

/-- L, the text length a command samples (R48, R59). -/
def Block.textLen (b : Block) : Nat := b.len.toNat

/-- `KeyValid(n, KEY)`: KEY[0 … n−1] is a permutation of 1 … n with n ≥ 1 (R52, 40_permute.md). -/
abbrev KeyValid (n : Nat) (key : List KeyWord) : Prop :=
  1 ≤ n ∧ (∀ c < n, 1 ≤ keyVal key c ∧ keyVal key c ≤ n) ∧
    ∀ c < n, ∀ d < n, c ≠ d → keyVal key c ≠ keyVal key d

end Sys2Proof.Machine
end

