-- ==== Sys2Proof/Machine/Flags.lean ====
section
/-! DEFINITION. STATUS: its result codes (R68, 60_exceptions.md), its read value (R17, 10_state.md), and the
checks that compute STATUS.ERR (R56 to R59, 40_permute.md). -/

namespace Sys2Proof.Machine

/-- Code 0, NONE (R68). -/
def errNone : ErrCode := 0#4
/-- Code 1, MALFORMED_KEY (R57, R68). -/
def errMalformedKey : ErrCode := 1#4
/-- Code 2, LENGTH_MISMATCH (R58, R68). -/
def errLengthMismatch : ErrCode := 2#4
/-- Code 3, ILLEGAL_CMD (R47, R68). -/
def errIllegalCmd : ErrCode := 3#4
/-- Code 4, RANGE (R56, R68). -/
def errRange : ErrCode := 4#4

/-- Codes 0 to 4 are the legal values of STATUS.ERR; 5 to 15 are never produced (R17, R68). -/
abbrev ErrLegal (e : ErrCode) : Prop := e.toNat ≤ 4

/-- The STATUS word: DONE in bit 0, ERR in bits 7:4, reserved bits 0 (R17, 10_state.md). -/
def statusWord (b : Block) : Word32 := zext32 (b.err ++ 0b000#3 ++ BitVec.ofBool b.done)

/-- The result code of a legal command on the block's operands: the first check that fails gives it
(R59, 40_permute.md; R70, 60_exceptions.md). -/
def operandError (c : Config) (b : Block) : ErrCode :=
  if c.nMax < b.n ∨ c.lMax < b.textLen then errRange
  else if ¬ KeyValid b.n b.key then errMalformedKey
  else if b.textLen % b.n ≠ 0 then errLengthMismatch
  else errNone

end Sys2Proof.Machine
end

