-- ==== Sys2Proof/Machine/Ops.lean ====
section
/-! DEFINITION. The shared operations: what a host read returns, what a host write stores, and how a command
ends, successfully or not. -/

namespace Sys2Proof.Machine

/-- PARAMS, a constant of the build: NMAX in bits 7:0, LMAX in 23:8, SYMW in 27:24 (R20, 10_state.md). -/
def paramsWord (c : Config) : Word32 :=
  zext32 (BitVec.ofNat 4 Config.symW ++ BitVec.ofNat 16 c.lMax ++ BitVec.ofNat 8 c.nMax)

/-- The word a host read of a register returns (R37, 20_memory.md). -/
def regValue (c : Config) (b : Block) : Reg → Word32
  | .cmd    => 0#32
  | .status => statusWord b
  | .keylen => zext32 b.keylen
  | .len    => zext32 b.len
  | .outlen => zext32 b.outlen
  | .params => paramsWord c
  | .key i  => zext32 (b.key.getD i 0#8)
  | .inp i  => zext32 (symAt b.inp i)
  | .out i  => zext32 (symAt b.out i)

/-- KEYLEN <- w[7:0] (R18, 10_state.md). -/
def Block.writeKeylen (b : Block) (w : Word32) : Block := { b with keylen := lowBits 8 w }

/-- LEN <- w[15:0] (R19, 10_state.md). -/
def Block.writeLen (b : Block) (w : Word32) : Block := { b with len := lowBits 16 w }

/-- KEY[i] <- w[7:0] (R22, 10_state.md). -/
def Block.writeKey (b : Block) (i : Nat) (w : Word32) : Block := { b with key := b.key.set i (lowBits 8 w) }

/-- IN[i] <- w[4:0] (R23, 10_state.md). -/
def Block.writeInp (b : Block) (i : Nat) (w : Word32) : Block := { b with inp := b.inp.set i (lowBits 5 w) }

/-- Old output never survives a command: every OUT[i] <- 0 and OUTLEN <- 0 (R59, 40_permute.md). -/
def Block.clearOutput (c : Config) (b : Block) : Block :=
  { b with out := List.replicate c.lMax 0#5, outlen := 0#16 }

/-- STATUS.ERR <- err; STATUS.DONE <- 1: the end of every command (R59, 40_permute.md). -/
def Block.finish (err : ErrCode) (b : Block) : Block := { b with err := err, done := true }

/-- `raise CmdError(code)`: the effect of a failed command, this block's only exception. Nothing is saved
and no control flow is diverted (R69, R73, 60_exceptions.md), so there is no return from it (R74). -/
def Block.cmdError (c : Config) (code : ErrCode) (b : Block) : Block := (b.clearOutput c).finish code

/-- `xs[0 .. ys.length-1] <- ys`. -/
def writePrefix (xs ys : List Sym) : List Sym := ys ++ xs.drop ys.length

/-- A successful command with the result `result`: OUT[0 .. L-1] <- result; OUTLEN <- L; ERR <- NONE
(R59, 40_permute.md). -/
def Block.cmdSuccess (c : Config) (result : List Sym) (b : Block) : Block :=
  let cleared := b.clearOutput c
  Block.finish errNone { cleared with out := writePrefix cleared.out result, outlen := b.len }

/-- `Execute` for a legal command word whose transform is `f n L KEY IN` (R59, 40_permute.md). The operands
are those the registers hold at the CMD write. -/
def Block.runTransform (c : Config) (f : Nat → Nat → List KeyWord → List Sym → List Sym) (b : Block) : Block :=
  if operandError c b = errNone then b.cmdSuccess c (f b.n b.textLen b.key b.inp)
  else b.cmdError c (operandError c b)

end Sys2Proof.Machine
end

