-- ==== Sys2Proof/Machine/Permute.lean ====
section
/-! DEFINITION. ENCODE and DECODE: the two transforms as pure functions (R53, R54, 40_permute.md) and the meanings
of the two commands (R60, R61). -/

namespace Sys2Proof.Machine

/-- `for c in [0, n): for r in [0, R):` as the list of its (column, row) pairs, in the loops' order (R53). -/
def cells (n rows : Nat) : List (Nat × Nat) :=
  (List.range n).flatMap fun c => (List.range rows).map fun r => (c, r)

/-- The row-major index of row r of column c: `r * n + c` (R51, R53). -/
def rowMajor (n : Nat) (cell : Nat × Nat) : Nat := cell.2 * n + cell.1

/-- The column-major index of row r of column c: `(KEY[c] - 1) * R + r` (R53). -/
def colMajor (key : List KeyWord) (rows : Nat) (cell : Nat × Nat) : Nat :=
  (keyVal key cell.1 - 1) * rows + cell.2

/-- The assignments `buf[dst cell] <- src[srcIx cell]`, cell after cell. -/
def scatter (dst srcIx : Nat × Nat → Nat) (src : List Sym) (cs : List (Nat × Nat)) (buf : List Sym) : List Sym :=
  cs.foldl (fun e cell => e.set (dst cell) (symAt src (srcIx cell))) buf

/-- `Enc(n, L, KEY, IN)`: E[(KEY[c] - 1) * R + r] <- IN[r * n + c] (R53, 40_permute.md). -/
def enc (n l : Nat) (key : List KeyWord) (inp : List Sym) : List Sym :=
  scatter (colMajor key (l / n)) (rowMajor n) inp (cells n (l / n)) (List.replicate l 0#5)

/-- `Dec(n, L, KEY, IN)`: D[r * n + c] <- IN[(KEY[c] - 1) * R + r] (R54, 40_permute.md). -/
def dec (n l : Nat) (key : List KeyWord) (inp : List Sym) : List Sym :=
  scatter (rowMajor n) (colMajor key (l / n)) inp (cells n (l / n)) (List.replicate l 0#5)

/-- ENCODE (R60, 40_permute.md): `Execute(0x00000001)` of R59. -/
def execEncode (s : State) : Host.Outcome State Fault Refusal :=
  .next (s.withBlk (s.blk.runTransform s.cfg enc))

/-- DECODE (R61, 40_permute.md): `Execute(0x00000002)` of R59. -/
def execDecode (s : State) : Host.Outcome State Fault Refusal :=
  .next (s.withBlk (s.blk.runTransform s.cfg dec))

end Sys2Proof.Machine
end

