-- ==== Sys2Proof/Machine/HostPort.lean ====
section
/-! DEFINITION. The host port: what one host access or reset does (R33 to R41, 20_memory.md; R82, R83,
70_reset_and_hazards.md). Step.lean only calls `performNext`. -/

namespace Sys2Proof.Machine

/-- `Execute(w)`: a command word runs as its instruction; an illegal word starts a command that fails with
ILLEGAL_CMD (R47, 30_encoding.md; R59, 40_permute.md). -/
def execute (w : Word32) (s : State) : Host.Outcome State Fault Refusal :=
  match decodeWord w with
  | .ok i => exec i s
  | .error _ => .next (s.withBlk (s.blk.cmdError s.cfg errIllegalCmd))

/-- The write's response, after its effect is complete (R40, 20_memory.md). -/
def completeWrite : Host.Outcome State Fault Refusal → Host.Outcome State Fault Refusal
  | .next s => .next (s.respond .written)
  | .fault r => .fault r
  | .refused r => .refused r

/-- A host read (R33, R37, 20_memory.md): no effect but its response. A read of STATUS while ERR holds a code
that is never produced is refused (O3, 93_implementation_defined.md). -/
def busRead (a : Access) (s : State) : Host.Outcome State Fault Refusal :=
  match accessReg s.cfg a with
  | none => .fault (.busError a.addr)
  | some r =>
    if r = .status ∧ ¬ ErrLegal s.blk.err then .refused (.reservedErrCode s.blk.err)
    else .next (s.respond (.data (regValue s.cfg s.blk r)))

/-- A host write (R33, R38, 20_memory.md). A write to a read-only register is a bus error. -/
def busWrite (a : Access) (w : Word32) (s : State) : Host.Outcome State Fault Refusal :=
  match accessReg s.cfg a with
  | none => .fault (.busError a.addr)
  | some .cmd => completeWrite (execute w s)
  | some .keylen => completeWrite (.next (s.withBlk (s.blk.writeKeylen w)))
  | some .len => completeWrite (.next (s.withBlk (s.blk.writeLen w)))
  | some (.key i) => completeWrite (.next (s.withBlk (s.blk.writeKey i w)))
  | some (.inp i) => completeWrite (.next (s.withBlk (s.blk.writeInp i w)))
  | some .status => .fault (.busError a.addr)
  | some .outlen => .fault (.busError a.addr)
  | some .params => .fault (.busError a.addr)
  | some (.out _) => .fault (.busError a.addr)

/-- A fault of a host access is delivered to the host as that access's response: it gets no data, the state
`s` before the access stays, and the machine goes on (R33, R71; P5 of 95_test_vectors.md; log 4). -/
def deliver (s : State) : Host.Outcome State Fault Refusal → Host.Outcome State Fault Refusal
  | .next t => .next t
  | .fault r => .next (s.respond (.fault r))
  | .refused r => .refused r

/-- Reset: every element of the block takes its reset value, and nothing else changes (R82). The host's side
of the bus is not the block's. -/
def resetBlock (s : State) : State := s.withBlk (Block.atReset s.cfg)

/-- What one thing the host does does (section 4 of 20_memory.md). A reset during a CMD write abandons the write,
whatever its word: the state is the reset state and the host's access faults (R83; log 5). -/
def perform (s : State) : HostEvent → Host.Outcome State Fault Refusal
  | .read a => deliver s (busRead a s)
  | .write a w => deliver s (busWrite a w s)
  | .reset => .next (resetBlock s)
  | .resetDuringCmd _ => .next ((resetBlock s).respond (.fault (.abandonedByReset s.cfg.resetResp)))

/-- One step: the host's next access or reset, in issue order, to its end (R40, R41, 20_memory.md). With none,
the idle block holds its state (R81, 60_exceptions.md). -/
def performNext (s : State) : Host.Outcome State Fault Refusal :=
  match s.pending with
  | [] => .next s
  | e :: rest => perform (s.withPending rest) e

/-- The host's CMD write of `w` (R45, 30_encoding.md; R38, 20_memory.md). -/
def cmdWrite (c : Config) (w : Word32) : HostEvent := .write (Reg.cmd.access c) w

end Sys2Proof.Machine
end

