-- ==== Sys2Proof/Machine/Step.lean ====
section
/-! DEFINITION. The machine's step, and how a command word is placed so that the next step runs it. -/

namespace Sys2Proof.Machine

/-- One step of the machine: the host's next access or reset. -/
def step (s : State) : Host.Outcome State Fault Refusal := Sys2Proof.Machine.performNext s

/-- The block fetches nothing (R14, 10_state.md): a command is the data of a host write to CMD. So the word is
placed as the host's next access, the CMD write of it, before whatever else the host does (log 1). -/
def State.withFetchWord (s : State) (nbits w : Nat) : State :=
  s.withPending (Sys2Proof.Machine.cmdWrite s.cfg (tableWord nbits w) :: s.pending)

end Sys2Proof.Machine
end

