-- ==== Sys2Proof/Machine/HostProgram.lean ====
section
/-! DEFINITION. The syntax of host programs: operations (R49, 30_encoding.md) and pseudo-operations (R50) as the
bus accesses they stand for. None of them is a command of the block. -/

namespace Sys2Proof.Machine

/-- One operation of a host program (R49, 30_encoding.md). -/
inductive HostOp where
  /-- `WR <reg>, <value>` -/
  | wr (r : Reg) (value : Word32)
  /-- `RD <reg>` -/
  | rd (r : Reg)
  /-- `ENCODE` and `DECODE`: `WR CMD` of the command's word. -/
  | command (i : Instr)
deriving DecidableEq, Repr

/-- The registers a WR may name in a host program: CMD, KEYLEN, LEN, KEY[i], IN[i] (R49, 30_encoding.md). -/
def Reg.writable : Reg → Bool
  | .cmd => true
  | .keylen => true
  | .len => true
  | .key _ => true
  | .inp _ => true
  | .status => false
  | .outlen => false
  | .params => false
  | .out _ => false

/-- An operation names a register the block has, and a WR names one it may write (R49). -/
def HostOp.wf (c : Config) : HostOp → Bool
  | .wr r _ => r.inRange c && r.writable
  | .rd r => r.inRange c
  | .command i => i.wf

/-- The bus access an operation stands for (R49). -/
def HostOp.event (c : Config) : HostOp → HostEvent
  | .wr r v => .write (r.access c) v
  | .rd r => .read (r.access c)
  | .command i => .write (Reg.cmd.access c) (encodeWord i)

/-- `WR reg[from], v0`, `WR reg[from+1], v1`, … -/
def writeArray (reg : Nat → Reg) : Nat → List Word32 → List HostOp
  | _, [] => []
  | start, v :: vs => .wr (reg start) v :: writeArray reg (start + 1) vs

/-- `LOADKEY k0, …, k(n−1)` (R50). -/
def loadKey (ks : List Word32) : List HostOp := .wr .keylen (BitVec.ofNat 32 ks.length) :: writeArray .key 0 ks

/-- `LOADTEXT s0, …, s(L−1)` (R50). -/
def loadText (xs : List Word32) : List HostOp := .wr .len (BitVec.ofNat 32 xs.length) :: writeArray .inp 0 xs

/-- `READOUT L` (R50). -/
def readOut (l : Nat) : List HostOp := .rd .outlen :: (List.range l).map fun i => .rd (.out i)

/-- `COPYBACK L` (R50): for each i, `RD OUT[i]` giving v, then `WR IN[i], v`. The value the host writes is the one
its read gives: the zero-extended OUT[i] of the block, which no write of the sequence changes (R38, 20_memory.md). -/
def copyBack (b : Block) (l : Nat) : List HostOp :=
  (List.range l).flatMap fun i => [.rd (.out i), .wr (.inp i) (zext32 (symAt b.out i))]

end Sys2Proof.Machine
end

