-- ==== Sys2Proof/Safety.lean ====
section
/-! DEFINITION. What claims mean by a safe state and a safe run. -/

namespace Sys2Proof.Machine

/-- What STATUS, OUTLEN and OUT say of each other in every state a run reaches: ERR is a legal code (R68,
60_exceptions.md); OUTLEN counts symbols that OUT can hold (R21, 10_state.md); beyond them OUT is all zero
(R24); a result code other than NONE goes with no output at all (R69); and before the first command there is
neither an error nor output (R17, R29). -/
abbrev Block.OutputConsistent (c : Config) (b : Block) : Prop :=
  ErrLegal b.err ∧ b.outlen.toNat ≤ c.lMax ∧
    (∀ i < c.lMax, b.outlen.toNat ≤ i → symAt b.out i = 0#5) ∧
    (b.err ≠ errNone → b.outlen = 0#16) ∧
    (b.done = false → b.err = errNone ∧ b.outlen = 0#16)

/-- The invariant of the machine: its shape, and consistent output. -/
abbrev State.Inv (s : State) : Prop := s.Wf ∧ s.blk.OutputConsistent s.cfg

/-- The inputs of commands: what the host writes and no command does (R28, 10_state.md). -/
abbrev Block.SameInputs (b b' : Block) : Prop :=
  b'.keylen = b.keylen ∧ b'.len = b.len ∧ b'.key = b.key ∧ b'.inp = b.inp

/-- The outputs of commands: what commands write and no host write does (R28, 10_state.md). -/
abbrev Block.SameOutputs (b b' : Block) : Prop :=
  b'.done = b.done ∧ b'.err = b.err ∧ b'.outlen = b.outlen ∧ b'.out = b.out

/-- A command on these operands succeeds: n ≤ N_MAX, L ≤ L_MAX, a valid key, and a length that is a multiple of
the key length (R86, 70_reset_and_hazards.md; R56 to R58, 40_permute.md). -/
abbrev Block.OperandsLegal (c : Config) (b : Block) : Prop :=
  b.n ≤ c.nMax ∧ b.textLen ≤ c.lMax ∧ KeyValid b.n b.key ∧ b.textLen % b.n = 0

end Sys2Proof.Machine
end

