-- ==== Sys2Proof/Certificates/Slice0/Obligations.lean ====
section
/-! DEFINITION. The statements for the provers. Each docstring names the rule of spec/ it formalises. -/

namespace Sys2Proof.Claims

open Sys2Proof.Machine

/-- The 32-bit, all-lanes access at an offset from BASE: `MemRead(BASE + off, 4)`, `MemWrite(BASE + off, 4, …)`. -/
def wordAt (c : Config) (off : Nat) : Access := { addr := c.base + off, width := 4, lanes := 0b1111#4 }

/-- The host's next access is a write of `w` to CMD. -/
def NextIsCmdWrite (s : State) (w : Word32) (rest : List HostEvent) : Prop :=
  s.pending = .write (wordAt s.cfg 0x000) w :: rest

/-- The result code of a legal command, transcribed from the pseudocode of R59 (40_permute.md). -/
def operandCode (c : Config) (b : Block) : ErrCode :=
  if c.nMax < b.keylen.toNat ∨ c.lMax < b.len.toNat then 4#4
  else if ¬ KeyValid b.keylen.toNat b.key then 1#4
  else if b.len.toNat % b.keylen.toNat ≠ 0 then 2#4
  else 0#4

/-- The result code of a command with the word `w`: ILLEGAL_CMD for an illegal word, else the operands' (R59). -/
def resultCode (c : Config) (b : Block) (w : Word32) : ErrCode :=
  if w = 1#32 ∨ w = 2#32 then operandCode c b else 3#4

/-- OUT[i] after a command with the word `w` (R59): the transform's symbol on success, and 0 from L on or after a
failure. -/
def resultSym (c : Config) (b : Block) (w : Word32) (i : Nat) : Sym :=
  if resultCode c b w = 0#4 ∧ i < b.len.toNat then
    symAt ((if w = 1#32 then enc else dec) b.keylen.toNat b.len.toNat b.key b.inp) i
  else 0#5

/-- The block after a failed command with the code `code` (R69, 60_exceptions.md). -/
def failedBlock (c : Config) (b : Block) (code : ErrCode) : Block :=
  { b with done := true, err := code, outlen := 0#16, out := List.replicate c.lMax 0#5 }

/-- Everything but the block's outputs is the same: what a command leaves unchanged (R28, 10_state.md). -/
def OnlyOutputsDiffer (s t : State) : Prop :=
  t.cfg = s.cfg ∧ t.pending = s.pending ∧ t.responses = s.responses ∧ s.blk.SameInputs t.blk

/-- The step consumes the access `e` and delivers the response `r`, and the block becomes `b`. -/
def StepsTo (s : State) (rest : List HostEvent) (b : Block) (r : Response) : Prop :=
  step s = .next { s with blk := b, pending := rest, responses := s.responses ++ [r] }

/-- A read of the word at `off`, whenever it is the host's next access, returns `v` and changes nothing. -/
def ReadsAs (s : State) (off : Nat) (v : Word32) : Prop :=
  ∀ rest, StepsTo { s with pending := .read (wordAt s.cfg off) :: rest } rest s.blk (.data v)

/-- A write of `w` to the word at `off`, whenever it is the host's next access, completes and leaves the block `b`. -/
def WriteLeaves (s : State) (off : Nat) (w : Word32) (b : Block) : Prop :=
  ∀ rest, StepsTo { s with pending := .write (wordAt s.cfg off) w :: rest } rest b .written

/-- The access `e` at the address `addr`, whenever it is the host's next, ends in a bus error: no data, no state
change. -/
def BusErrors (s : State) (e : HostEvent) (addr : Nat) : Prop :=
  ∀ rest, StepsTo { s with pending := e :: rest } rest s.blk (.fault (.busError addr))

/-- The reserved offsets of the address map (R32, 20_memory.md). -/
def Reserved (c : Config) (off : Nat) : Prop :=
  (0x0018 ≤ off ∧ off ≤ 0x00FF) ∨ (0x0100 + 4 * c.nMax ≤ off ∧ off ≤ 0x01FF) ∨
  (0x0200 ≤ off ∧ off ≤ 0x0FFF) ∨ (0x1000 + 4 * c.lMax ≤ off ∧ off ≤ 0x1FFF) ∨
  (0x2000 + 4 * c.lMax ≤ off ∧ off ≤ 0x2FFF) ∨ (0x3000 ≤ off ∧ off ≤ 0x3FFF)

/-- The offsets of STATUS, OUTLEN, PARAMS and OUT[i] (R32, R33 (d), 20_memory.md). -/
def ReadOnly (c : Config) (off : Nat) : Prop :=
  off = 0x004 ∨ off = 0x010 ∨ off = 0x014 ∨ ∃ i < c.lMax, off = 0x2000 + 4 * i

/-- The offsets of KEYLEN, LEN, KEY[i] and IN[i] (R32, 20_memory.md). -/
def ReadWrite (c : Config) (off : Nat) : Prop :=
  off = 0x008 ∨ off = 0x00C ∨ (∃ i < c.nMax, off = 0x100 + 4 * i) ∨ ∃ i < c.lMax, off = 0x1000 + 4 * i

/-- The host event is a legal CMD write. -/
def IsCmdWrite (c : Config) (e : HostEvent) : Prop := ∃ w, e = .write (wordAt c 0x000) w

/-- The host event is a reset. -/
def IsReset (e : HostEvent) : Prop := e = .reset ∨ ∃ w, e = .resetDuringCmd w

/-- The host event is a legal write to an input register. -/
def IsInputWrite (c : Config) (e : HostEvent) : Prop := ∃ off w, ReadWrite c off ∧ e = .write (wordAt c off) w

/-- The host event is an access, which gets a response. A reset between accesses is none. -/
def IsAccess : HostEvent → Bool
  | .read _ => true
  | .write _ _ => true
  | .reset => false
  | .resetDuringCmd _ => true

/-- The machine with another LAT. -/
def withLat (l : Nat) (s : State) : State := { s with cfg := { s.cfg with lat := l } }

/-- An input register as an operation's target (KEYLEN, LEN, KEY[i], IN[i]). -/
def IsInputReg (c : Config) (r : Reg) : Prop := r.inRange c = true ∧ r.writable = true ∧ r ≠ .cmd

end Sys2Proof.Claims

open Sys2Proof Sys2Proof.Machine Sys2Proof.Claims

/-! ### Encoding -/

/-- R46 (30_encoding.md): exactly two command words are legal, ENCODE's and DECODE's. -/
def Obligations.ExactlyTwoCommandWordsAreLegal : Prop :=
  ∀ w : Word32, (decodeWord w = .ok .encode ↔ w = 0x00000001#32) ∧ (decodeWord w = .ok .decode ↔ w = 0x00000002#32)

/-- Decode and encode agree (R45, R46, 30_encoding.md; R36, 20_memory.md): a well-formed command's bytes decode to
it, no other bytes do, and the opcode table's numbering of its word gives it as well. -/
def Obligations.CommandBytesDecodeBack : Prop :=
  ∀ i : Instr, i.wf = true →
    decodeBytes (encodeBytes i) = .ok i ∧ (∀ bs, decodeBytes bs = .ok i → bs = encodeBytes i) ∧
      ∀ w < 2 ^ 32, decodeTableWord 32 w = some i ↔ BitVec.ofNat 32 w = encodeWord i

/-- R47 (30_encoding.md): every word but 1 and 2 is illegal; the decoder rejects it, naming a nonzero Z or the OP. -/
def Obligations.IllegalWordsAreRejectedByName : Prop :=
  ∀ w : Word32,
    ((∃ e, decodeWord w = .error e) ↔ w ≠ 1#32 ∧ w ≠ 2#32) ∧
    (4 ≤ w.toNat → decodeWord w = .error (.nonzeroZ (BitVec.ofNat 30 (w.toNat / 4)))) ∧
    (w = 0#32 → decodeWord w = .error (.illegalOp 0b00#2)) ∧
    (w = 3#32 → decodeWord w = .error (.illegalOp 0b11#2))

/-- Sanity: the words of the opcode map (R46), written out bit by bit, and ENCODE's byte lanes (R36). -/
def Obligations.OpcodeMapWordsDecode : Prop :=
  decodeWord 0b00000000000000000000000000000001#32 = .ok .encode ∧
  decodeWord 0b00000000000000000000000000000010#32 = .ok .decode ∧
  decodeBytes [0x01#8, 0x00#8, 0x00#8, 0x00#8] = .ok .encode ∧
  decodeBytes [0x02#8, 0x00#8, 0x00#8, 0x00#8] = .ok .decode

/-! ### A command: its step, its checks, its failure -/

/-- A step runs the decoded command: where the host's next access writes a command's word to CMD, the step is the
command's meaning at the state with that access taken, followed by the write's response (R38, R40, 20_memory.md).
`withFetchWord` places such a write (log 1). -/
def Obligations.StepRunsTheDecodedCommand : Prop :=
  (∀ s rest w i, NextIsCmdWrite s w rest → decodeWord w = .ok i →
    ∃ t, exec i { s with pending := rest } = .next t ∧
      step s = .next { t with responses := t.responses ++ [.written] }) ∧
  ∀ s i, ∃ t, exec i s = .next t ∧
    step (s.withFetchWord 32 (encodeWord i).toNat) = .next { t with responses := t.responses ++ [.written] }

/-- R70 (60_exceptions.md), with R56, R57 and R58 (40_permute.md): a CMD write of any word completes, and reports
exactly one code, the first of ILLEGAL_CMD, RANGE, MALFORMED_KEY and LENGTH_MISMATCH whose condition holds. -/
def Obligations.CommandReportsTheFirstErrorInOrder : Prop :=
  ∀ s rest w, NextIsCmdWrite s w rest →
    ∃ t, step s = .next t ∧ t.blk.done = true ∧
      t.blk.err =
        (if w ≠ 0x00000001#32 ∧ w ≠ 0x00000002#32 then 3#4
         else if s.blk.keylen.toNat > s.cfg.nMax ∨ s.blk.len.toNat > s.cfg.lMax then 4#4
         else if ¬ KeyValid s.blk.keylen.toNat s.blk.key then 1#4
         else if s.blk.len.toNat % s.blk.keylen.toNat ≠ 0 then 2#4
         else 0#4)

/-- R69 (60_exceptions.md): a failed command leaves no output and its code (3 for an illegal word, else the first
failing operand check's), changes nothing else, and completes the CMD write normally. -/
def Obligations.FailedCommandLeavesNoOutput : Prop :=
  ∀ s rest w, NextIsCmdWrite s w rest →
    ((w ≠ 1#32 ∧ w ≠ 2#32) ∨ operandCode s.cfg s.blk ≠ 0#4) →
      StepsTo s rest
        (failedBlock s.cfg s.blk (if w = 1#32 ∨ w = 2#32 then operandCode s.cfg s.blk else 3#4)) .written

/-- R47 (30_encoding.md): an illegal word's write completes normally, and its command ends with ILLEGAL_CMD, OUT
cleared and OUTLEN 0. -/
def Obligations.IllegalWordEndsWithIllegalCmd : Prop :=
  ∀ s rest w, NextIsCmdWrite s w rest → w ≠ 1#32 → w ≠ 2#32 →
    StepsTo s rest (failedBlock s.cfg s.blk 3#4) .written

/-! ### ENCODE and DECODE -/

/-- R60 (40_permute.md): ENCODE's word and example; and it completes in every state. On legal operands OUT holds, for each column c and row r,
IN[r·n + c] at (KEY[c] − 1)·R + r, then zeros; OUTLEN is L and ERR is 0. Otherwise the first failing check's code is
in ERR and there is no output. Nothing but the outputs changes. -/
def Obligations.EncodeEmitsColumnsInKeyOrder : Prop :=
  encodeWord .encode = 0x00000001#32 ∧
  enc 4 8 [2#8, 4#8, 1#8, 3#8] [0#5, 1#5, 2#5, 3#5, 4#5, 5#5, 6#5, 7#5] =
    [2#5, 6#5, 0#5, 4#5, 3#5, 7#5, 1#5, 5#5] ∧
  ∀ s, ∃ t, exec .encode s = .next t ∧ OnlyOutputsDiffer s t ∧ t.blk.done = true ∧
    t.blk.err = operandCode s.cfg s.blk ∧
    (t.blk.err ≠ 0#4 → t.blk.out = List.replicate s.cfg.lMax 0#5 ∧ t.blk.outlen = 0#16) ∧
    (t.blk.err = 0#4 →
      t.blk.outlen = s.blk.len ∧ t.blk.out.length = s.cfg.lMax ∧
      (∀ i, s.blk.len.toNat ≤ i → symAt t.blk.out i = 0#5) ∧
      ∀ c < s.blk.keylen.toNat, ∀ r < s.blk.len.toNat / s.blk.keylen.toNat,
        symAt t.blk.out ((keyVal s.blk.key c - 1) * (s.blk.len.toNat / s.blk.keylen.toNat) + r) =
          symAt s.blk.inp (r * s.blk.keylen.toNat + c))

/-- R61 (40_permute.md): DECODE's word and example; and it completes in every state. On legal operands OUT holds, for each column c and row r,
IN[(KEY[c] − 1)·R + r] at r·n + c, then zeros; OUTLEN is L and ERR is 0. Otherwise the first failing check's code is
in ERR and there is no output. Nothing but the outputs changes. With n = 1 or L = 0 ENCODE gives the same result. -/
def Obligations.DecodeReassemblesRows : Prop :=
  encodeWord .decode = 0x00000002#32 ∧
  dec 4 8 [2#8, 4#8, 1#8, 3#8] [2#5, 6#5, 0#5, 4#5, 3#5, 7#5, 1#5, 5#5] =
    [0#5, 1#5, 2#5, 3#5, 4#5, 5#5, 6#5, 7#5] ∧
  ∀ s, ∃ t, exec .decode s = .next t ∧
    (s.blk.keylen = 1#8 ∨ s.blk.len = 0#16 → exec .encode s = .next t) ∧ OnlyOutputsDiffer s t ∧ t.blk.done = true ∧
    t.blk.err = operandCode s.cfg s.blk ∧
    (t.blk.err ≠ 0#4 → t.blk.out = List.replicate s.cfg.lMax 0#5 ∧ t.blk.outlen = 0#16) ∧
    (t.blk.err = 0#4 →
      t.blk.outlen = s.blk.len ∧ t.blk.out.length = s.cfg.lMax ∧
      (∀ i, s.blk.len.toNat ≤ i → symAt t.blk.out i = 0#5) ∧
      ∀ c < s.blk.keylen.toNat, ∀ r < s.blk.len.toNat / s.blk.keylen.toNat,
        symAt t.blk.out (r * s.blk.keylen.toNat + c) =
          symAt s.blk.inp ((keyVal s.blk.key c - 1) * (s.blk.len.toNat / s.blk.keylen.toNat) + r))

/-- R53 (40_permute.md): Enc returns L symbols, E[(KEY[c] − 1)·R + r] = IN[r·n + c]; equivalently, for R ≥ 1,
E[j] = IN[(j mod R)·n + c] for the column c with KEY[c] = j / R + 1, which exists; for L = 0 it is empty. -/
def Obligations.EncMatchesItsClosedForm : Prop :=
  ∀ n l key inp, KeyValid n key → l % n = 0 →
    (enc n l key inp).length = l ∧
    (∀ c < n, ∀ r < l / n, symAt (enc n l key inp) ((keyVal key c - 1) * (l / n) + r) = symAt inp (r * n + c)) ∧
    (1 ≤ l / n → ∀ j < l, ∃ c < n, keyVal key c = j / (l / n) + 1 ∧
      symAt (enc n l key inp) j = symAt inp (j % (l / n) * n + c)) ∧
    (l = 0 → enc n l key inp = [])

/-- R54 (40_permute.md): Dec returns L symbols, D[r·n + c] = IN[(KEY[c] − 1)·R + r]: the r-th cell of group i is row r
of the column whose key value is i + 1. -/
def Obligations.DecSplitsIntoGroups : Prop :=
  ∀ n l key inp, KeyValid n key → l % n = 0 →
    (dec n l key inp).length = l ∧
    (∀ c < n, ∀ r < l / n, symAt (dec n l key inp) (r * n + c) = symAt inp ((keyVal key c - 1) * (l / n) + r)) ∧
    ∀ i < n, ∃ c < n, keyVal key c = i + 1 ∧
      ∀ r < l / n, symAt (dec n l key inp) (r * n + c) = symAt inp (i * (l / n) + r)

/-- R52 (40_permute.md): KeyValid is: n ≥ 1, all values in range, and none repeated; for n ≥ 1 the last two say that
the values are all of 1 … n; it reads only the first n entries; (1,1,2), (0,1) and (1,3) are invalid; and where
n > N_MAX a command's result code is RANGE whatever the key, so that the predicate is not evaluated. -/
def Obligations.KeyValidMeansPermutation : Prop :=
  (∀ n key, KeyValid n key ↔
    1 ≤ n ∧ (∀ c < n, 1 ≤ keyVal key c ∧ keyVal key c ≤ n) ∧
      ∀ c < n, ∀ d < n, c ≠ d → keyVal key c ≠ keyVal key d) ∧
  (∀ n key, KeyValid n key ↔ 1 ≤ n ∧ ∀ v, (∃ c < n, keyVal key c = v) ↔ 1 ≤ v ∧ v ≤ n) ∧
  (∀ n key key', (∀ c < n, keyVal key c = keyVal key' c) → (KeyValid n key ↔ KeyValid n key')) ∧
  ¬ KeyValid 3 [1#8, 1#8, 2#8] ∧ ¬ KeyValid 2 [0#8, 1#8] ∧ ¬ KeyValid 2 [1#8, 3#8] ∧
  ∀ (i : Instr) (s : State) key, s.cfg.nMax < s.blk.keylen.toNat →
    ∃ t, exec i (s.withBlk { s.blk with key := key }) = .next t ∧ t.blk.err = 4#4

/-- R55 (40_permute.md): over the n·R cells the row-major and the column-major index each take every position of
[0, n·R) exactly once and no other; with R = 0 there is nothing to move; with n = 1 both transforms are the identity;
with R = 1, Enc puts IN[c] at KEY[c] − 1 and Dec puts IN[KEY[c] − 1] at c. -/
def Obligations.IndexMapsCoverEachPositionOnce : Prop :=
  ∀ n rows key, KeyValid n key →
    (∀ c < n, ∀ r < rows, r * n + c < n * rows ∧ (keyVal key c - 1) * rows + r < n * rows) ∧
    (∀ p < n * rows, ∃! cell : Nat × Nat, (cell.1 < n ∧ cell.2 < rows) ∧ cell.2 * n + cell.1 = p) ∧
    (∀ p < n * rows, ∃! cell : Nat × Nat,
      (cell.1 < n ∧ cell.2 < rows) ∧ (keyVal key cell.1 - 1) * rows + cell.2 = p) ∧
    (∀ inp, enc n 0 key inp = [] ∧ dec n 0 key inp = []) ∧
    (n = 1 → ∀ inp, ∀ p < rows, symAt (enc n rows key inp) p = symAt inp p ∧
      symAt (dec n rows key inp) p = symAt inp p) ∧
    ∀ inp, ∀ c < n, symAt (enc n n key inp) (keyVal key c - 1) = symAt inp c ∧
      symAt (dec n n key inp) c = symAt inp (keyVal key c - 1)

/-- From R55 (40_permute.md): each input position is read exactly once and each output position written exactly once,
so both transforms only reorder the symbols. -/
def Obligations.TransformsReorderTheSymbols : Prop :=
  ∀ n l key inp, KeyValid n key → l % n = 0 → l ≤ inp.length →
    (enc n l key inp).Perm (inp.take l) ∧ (dec n l key inp).Perm (inp.take l)

/-- R8 (00_scope.md): a command never inspects, changes or checks a symbol's value. Renaming the symbols of IN by any
map renames those of the output, and the result code is the same. -/
def Obligations.CommandsAreBlindToSymbolValues : Prop :=
  ∀ (f : Sym → Sym) (s t : State) (i : Instr), s.Wf → exec i s = .next t →
    ∃ t', exec i (s.withBlk { s.blk with inp := s.blk.inp.map f }) = .next t' ∧
      t'.blk.err = t.blk.err ∧ t'.blk.outlen = t.blk.outlen ∧
      ∀ p < t.blk.outlen.toNat, symAt t'.blk.out p = f (symAt t.blk.out p)

/-- From R62 (40_permute.md): Dec inverts Enc; and at the block, ENCODE, then COPYBACK L, then DECODE with the same
KEYLEN and KEY leaves OUT[0 … L−1] = the original IN[0 … L−1]. COPYBACK is the MODEL's list of accesses (log 14), whose
written values are taken from OUT as the list starts; ReadoutAndCopybackMoveTheOutput says that the reads give them. -/
def Obligations.DecodeInvertsEncode : Prop :=
  (∀ n l key t, KeyValid n key → l % n = 0 → t.length = l → dec n l key (enc n l key t) = t) ∧
  ∀ s : State, s.Wf → s.blk.OperandsLegal s.cfg →
    ∃ t u v : State,
      Host.Core.run core 1 { s with pending := [HostOp.event s.cfg (.command .encode)] } = .next t ∧
      Host.Core.run core (2 * s.blk.textLen)
        { t with pending := (copyBack t.blk s.blk.textLen).map (HostOp.event s.cfg) } = .next u ∧
      Host.Core.run core 1 { u with pending := [HostOp.event s.cfg (.command .decode)] } = .next v ∧
      v.blk.err = errNone ∧ v.blk.out.take s.blk.textLen = s.blk.inp.take s.blk.textLen

/-- R63 (40_permute.md): Enc inverts Dec. In general the two differ; they coincide when n = 1, when L = 0, when R = 1
and the key is an involution, and when R = n and the key is the identity, where both are the square's transpose. -/
def Obligations.EncodeInvertsDecode : Prop :=
  (∀ n l key t, KeyValid n key → l % n = 0 → t.length = l → enc n l key (dec n l key t) = t) ∧
  (∃ n l key t, KeyValid n key ∧ l % n = 0 ∧ enc n l key t ≠ dec n l key t) ∧
  (∀ l key t, KeyValid 1 key → enc 1 l key t = dec 1 l key t) ∧
  (∀ n key t, KeyValid n key → enc n 0 key t = dec n 0 key t) ∧
  (∀ n key t, KeyValid n key → (∀ c < n, keyVal key (keyVal key c - 1) = c + 1) → enc n n key t = dec n n key t) ∧
  ∀ n key t, 1 ≤ n → (∀ c < n, keyVal key c = c + 1) →
    enc n (n * n) key t = dec n (n * n) key t ∧
      ∀ c < n, ∀ r < n, symAt (enc n (n * n) key t) (c * n + r) = symAt t (r * n + c)

/-! ### What a command reads and writes -/

/-- R66 and R74 (40_permute.md, 60_exceptions.md): a command's outputs depend only on its word, KEYLEN, LEN,
KEY[0 … n−1] and IN[0 … L−1] (and the build parameters), whatever else the states hold. -/
def Obligations.OutputsDependOnlyOnTheOperands : Prop :=
  ∀ (i : Instr) (s s' t t' : State),
    s.cfg.nMax = s'.cfg.nMax → s.cfg.lMax = s'.cfg.lMax →
    s.blk.keylen = s'.blk.keylen → s.blk.len = s'.blk.len →
    (∀ c < s.blk.keylen.toNat, keyVal s.blk.key c = keyVal s'.blk.key c) →
    (∀ p < s.blk.len.toNat, symAt s.blk.inp p = symAt s'.blk.inp p) →
    exec i s = .next t → exec i s' = .next t' → t.blk.SameOutputs t'.blk

/-- R75 (60_exceptions.md): errors are not sticky. A CMD write leaves the same state whatever STATUS, OUTLEN and OUT held
before it. -/
def Obligations.CommandOverwritesTheOldResult : Prop :=
  ∀ s rest w b, NextIsCmdWrite s w rest → s.blk.SameInputs b →
    ∃ t, step s = .next t ∧ step (s.withBlk b) = .next t

/-- R28 (10_state.md): who writes what. A step that is no CMD write and no reset leaves STATUS, OUTLEN and OUT; one
that is no legal write to KEYLEN, LEN, KEY or IN and no reset leaves them (a command never writes its inputs); a write
to STATUS, OUTLEN or OUT is a bus error; a command and a reset do write the outputs, and a reset the inputs. -/
def Obligations.OnlyTheNamedEventsWriteEachRegister : Prop :=
  ∀ s e rest, s.cfg.Wf → s.pending = e :: rest →
    (∀ t, step s = .next t →
      t.cfg = s.cfg ∧
      (¬ IsCmdWrite s.cfg e → ¬ IsReset e → s.blk.SameOutputs t.blk) ∧
      (¬ IsInputWrite s.cfg e → ¬ IsReset e → s.blk.SameInputs t.blk)) ∧
    (∀ off w, off = 0x004 ∨ off = 0x010 ∨ (∃ i < s.cfg.lMax, off = 0x2000 + 4 * i) →
      e = .write (wordAt s.cfg off) w → StepsTo s rest s.blk (.fault (.busError (s.cfg.base + off)))) ∧
    (IsCmdWrite s.cfg e → ∃ t, step s = .next t ∧ t.blk.done = true) ∧
    (IsReset e → ∃ t, step s = .next t ∧ t.blk = Block.atReset s.cfg)

/-- R39 (20_memory.md): a read changes no state and, repeated, returns the same value; a repeated write (of an input,
or of a command) leaves the block as the first one left it. -/
def Obligations.RepeatedAccessesChangeNothing : Prop :=
  ∀ s e rest t u, s.pending = e :: e :: rest → step s = .next t → step t = .next u →
    ((∃ a, e = .read a) → t.blk = s.blk ∧ u.blk = s.blk ∧
      ∃ r, t.responses = s.responses ++ [r] ∧ u.responses = s.responses ++ [r, r]) ∧
    ((∃ a w, e = .write a w) → u.blk = t.blk)

/-- R91 (70_reset_and_hazards.md): no rule depends on LAT. Two machines that differ in LAT only take the same step. -/
def Obligations.NoStepDependsOnLat : Prop :=
  ∀ l s, (∀ t, step s = .next t → step (withLat l s) = .next (withLat l t)) ∧
    (∀ r, step s = .refused r → step (withLat l s) = .refused r)

/-! ### The register window -/

/-- From R33 and R34 (20_memory.md): an access to the window is a bus error exactly when its width is not 4 bytes with
all lanes, its offset is misaligned or reserved, or it writes a read-only register; it then changes no state and returns
no data. That a READ with some lanes off is one is the MODEL's reading of R34, which names partial lanes of writes only
(log 8). -/
def Obligations.BusErrorsAreExactlyTheIllegalAccesses : Prop :=
  ∀ s off width lanes w, s.cfg.Wf → off < 0x4000 →
    (BusErrors s (.read ⟨s.cfg.base + off, width, lanes⟩) (s.cfg.base + off) ↔
      (width ≠ 4 ∨ lanes ≠ 0b1111#4) ∨ off % 4 ≠ 0 ∨ Reserved s.cfg off) ∧
    (BusErrors s (.write ⟨s.cfg.base + off, width, lanes⟩ w) (s.cfg.base + off) ↔
      (width ≠ 4 ∨ lanes ≠ 0b1111#4) ∨ off % 4 ≠ 0 ∨ Reserved s.cfg off ∨ ReadOnly s.cfg off)

/-- An access outside the window is a bus error too: the MODEL's choice, log 7. -/
def Obligations.AccessesOutsideTheWindowFault : Prop :=
  ∀ s a w, a.addr < s.cfg.base ∨ s.cfg.base + 0x4000 ≤ a.addr →
    BusErrors s (.read a) a.addr ∧ BusErrors s (.write a w) a.addr

/-- R37 (20_memory.md): what a legal read returns at each offset, with no side effect; any other offset is a bus error.
The premise on ERR is an invariant (StepKeepsTheInvariant); the codes it rules out are never produced (R68). -/
def Obligations.ReadsReturnTheRegisters : Prop :=
  ∀ s, s.cfg.Wf → ErrLegal s.blk.err →
    ReadsAs s 0x000 0#32 ∧
    ReadsAs s 0x004 (BitVec.ofNat 32 (16 * s.blk.err.toNat + s.blk.done.toNat)) ∧
    ReadsAs s 0x008 (BitVec.ofNat 32 s.blk.keylen.toNat) ∧
    ReadsAs s 0x00C (BitVec.ofNat 32 s.blk.len.toNat) ∧
    ReadsAs s 0x010 (BitVec.ofNat 32 s.blk.outlen.toNat) ∧
    ReadsAs s 0x014 (BitVec.ofNat 32 (5 * 2 ^ 24 + s.cfg.lMax * 2 ^ 8 + s.cfg.nMax)) ∧
    (∀ i < s.cfg.nMax, ReadsAs s (0x100 + 4 * i) (BitVec.ofNat 32 (s.blk.key.getD i 0#8).toNat)) ∧
    (∀ i < s.cfg.lMax, ReadsAs s (0x1000 + 4 * i) (BitVec.ofNat 32 (s.blk.inp.getD i 0#5).toNat)) ∧
    (∀ i < s.cfg.lMax, ReadsAs s (0x2000 + 4 * i) (BitVec.ofNat 32 (s.blk.out.getD i 0#5).toNat)) ∧
    ∀ off < 0x4000, off ≠ 0 → ¬ ReadOnly s.cfg off → ¬ ReadWrite s.cfg off →
      BusErrors s (.read (wordAt s.cfg off)) (s.cfg.base + off)

/-- R38 (20_memory.md): what a legal write does at each offset. A write to KEYLEN, LEN, KEY or IN changes only that
register (so STATUS, OUTLEN and OUT stay); a write to CMD executes the word; any other offset is a bus error. -/
def Obligations.WritesStoreTheField : Prop :=
  ∀ s w, s.cfg.Wf →
    (∃ t, execute w s = .next t ∧ WriteLeaves s 0x000 w t.blk) ∧
    WriteLeaves s 0x008 w { s.blk with keylen := BitVec.ofNat 8 w.toNat } ∧
    WriteLeaves s 0x00C w { s.blk with len := BitVec.ofNat 16 w.toNat } ∧
    (∀ i < s.cfg.nMax, WriteLeaves s (0x100 + 4 * i) w { s.blk with key := s.blk.key.set i (BitVec.ofNat 8 w.toNat) }) ∧
    (∀ i < s.cfg.lMax, WriteLeaves s (0x1000 + 4 * i) w { s.blk with inp := s.blk.inp.set i (BitVec.ofNat 5 w.toNat) }) ∧
    (∀ off, ReadOnly s.cfg off → BusErrors s (.write (wordAt s.cfg off) w) (s.cfg.base + off)) ∧
    ∀ off < 0x4000, off ≠ 0 → ¬ ReadWrite s.cfg off → BusErrors s (.write (wordAt s.cfg off) w) (s.cfg.base + off)

/-- R18, R19, R22, R23 and R25 (10_state.md): a write to a read/write register stores exactly its field's bits,
whatever their value, and a read gives them back with the reserved bits 0. -/
def Obligations.WrittenFieldsReadBack : Prop :=
  ∀ s w rest r, s.Wf → IsInputReg s.cfg r →
    s.pending = .write (r.access s.cfg) w :: .read (r.access s.cfg) :: rest →
      ∃ t u, step s = .next t ∧ step t = .next u ∧
        u.responses = s.responses ++ [.written, .data (match r with
          | .keylen => w &&& 0x000000FF#32
          | .len => w &&& 0x0000FFFF#32
          | .key _ => w &&& 0x000000FF#32
          | _ => w &&& 0x0000001F#32)]

/-- R32 (20_memory.md): every register of the window has its own aligned offset inside it, a legal access there
reaches it, and a legal access reaches nothing else. -/
def Obligations.EachRegisterHasItsOwnOffset : Prop :=
  ∀ c : Config, c.Wf →
    (∀ r : Reg, r.inRange c = true → r.offset < 0x4000 ∧ r.offset % 4 = 0 ∧ accessReg c (wordAt c r.offset) = some r) ∧
    (∀ r r' : Reg, r.inRange c = true → r'.inRange c = true → r.offset = r'.offset → r = r') ∧
    ∀ a r, accessReg c a = some r → r.inRange c = true ∧ a = wordAt c r.offset

/-- R20 (10_state.md): PARAMS holds N_MAX in bits 7:0, L_MAX in 23:8, 5 in 27:24 and 0 above; a read returns it; it
never changes, not even at reset; a write to it is a bus error. -/
def Obligations.ParamsIsAConstant : Prop :=
  ∀ s, s.cfg.Wf →
    (((paramsWord s.cfg).extractLsb' 0 8).toNat = s.cfg.nMax ∧ ((paramsWord s.cfg).extractLsb' 8 16).toNat = s.cfg.lMax ∧
      (paramsWord s.cfg).extractLsb' 24 4 = 5#4 ∧ (paramsWord s.cfg).extractLsb' 28 4 = 0#4) ∧
    ReadsAs s 0x014 (paramsWord s.cfg) ∧
    (∀ t, step s = .next t → paramsWord t.cfg = paramsWord s.cfg) ∧
    ∀ w, BusErrors s (.write (wordAt s.cfg 0x014) w) (s.cfg.base + 0x014)

/-- R17 (10_state.md): the STATUS word has DONE in bit 0, ERR in bits 7:4 and 0 elsewhere. -/
def Obligations.StatusWordFields : Prop :=
  ∀ b : Block, (statusWord b).getLsbD 0 = b.done ∧ (statusWord b).extractLsb' 1 3 = 0#3 ∧
    (statusWord b).extractLsb' 4 4 = b.err ∧ (statusWord b).extractLsb' 8 24 = 0#24

/-- O3 (93_implementation_defined.md) and R68 (60_exceptions.md): a read of STATUS that holds a code that is never
produced is refused by name. -/
def Obligations.ReservedErrorCodeReadIsRefused : Prop :=
  ∀ s rest, 5 ≤ s.blk.err.toNat → s.pending = .read (wordAt s.cfg 0x004) :: rest → s.cfg.Wf →
    step s = .refused (.reservedErrCode s.blk.err)

/-! ### Ordering -/

/-- R40 and R41 (20_memory.md): the effects of a command are complete when its CMD write responds. The host's next
access sees its whole result, whatever the word: a read of STATUS gets the result code and DONE, a read of OUTLEN gets L
or, after a failure, 0, and a read of OUT[i] gets the result's symbol. -/
def Obligations.NextReadSeesTheCommandsResult : Prop :=
  ∀ s w off rest, s.cfg.Wf → NextIsCmdWrite s w (.read (wordAt s.cfg off) :: rest) →
    ∃ t u r, step s = .next t ∧ step t = .next u ∧ u.responses = s.responses ++ [.written, r] ∧
      (off = 0x004 → r = .data (BitVec.ofNat 32 (16 * (resultCode s.cfg s.blk w).toNat + 1))) ∧
      (off = 0x010 →
        r = .data (BitVec.ofNat 32 (if resultCode s.cfg s.blk w = 0#4 then s.blk.len.toNat else 0))) ∧
      ∀ i < s.cfg.lMax, off = 0x2000 + 4 * i → r = .data (BitVec.ofNat 32 (resultSym s.cfg s.blk w i).toNat)

/-- R87 (70_reset_and_hazards.md): the order of the input writes does not matter: two writes to different input
registers leave the same block in either order. -/
def Obligations.InputWritesCommute : Prop :=
  ∀ (s : State) r r' v v', s.cfg.Wf → IsInputReg s.cfg r → IsInputReg s.cfg r' → r ≠ r' →
    ∃ t, Host.Core.run core 2 { s with pending := [.write (r.access s.cfg) v, .write (r'.access s.cfg) v'] } = .next t ∧
      Host.Core.run core 2 { s with pending := [.write (r'.access s.cfg) v', .write (r.access s.cfg) v] } = .next t

/-- R50 (30_encoding.md): LOADKEY and LOADTEXT load the key and the text, and nothing else changes in the block. -/
def Obligations.LoadPseudoOperationsLoadTheOperands : Prop :=
  ∀ (s : State) (vs : List Word32), s.Wf →
    (vs.length ≤ s.cfg.nMax →
      ∃ t : State, Host.Core.run core (vs.length + 1) { s with pending := (loadKey vs).map (HostOp.event s.cfg) } = .next t ∧
        t.pending = [] ∧
        t.blk = { s.blk with
          keylen := BitVec.ofNat 8 vs.length
          key := vs.map (BitVec.setWidth 8) ++ s.blk.key.drop vs.length }) ∧
    (vs.length ≤ s.cfg.lMax →
      ∃ t : State, Host.Core.run core (vs.length + 1) { s with pending := (loadText vs).map (HostOp.event s.cfg) } = .next t ∧
        t.pending = [] ∧
        t.blk = { s.blk with
          len := BitVec.ofNat 16 vs.length
          inp := vs.map (BitVec.setWidth 5) ++ s.blk.inp.drop vs.length })

/-- R50 (30_encoding.md): READOUT L returns OUTLEN and OUT[0 … L−1] and changes nothing; COPYBACK L reads OUT[0 … L−1],
leaves it in IN[0 … L−1], and changes nothing else in the block. For each i < L the accesses 2i and 2i + 1 of COPYBACK are
the read of OUT[i] and a write to IN[i] of the very value that the read's response gives. (The list's values are taken
from OUT as it starts, the MODEL's choice of log 14: this clause says that they are the reads'.) -/
def Obligations.ReadoutAndCopybackMoveTheOutput : Prop :=
  ∀ (s : State) l, s.Wf → l ≤ s.cfg.lMax →
    (∃ t : State, Host.Core.run core (l + 1) { s with pending := (readOut l).map (HostOp.event s.cfg) } = .next t ∧
      t.pending = [] ∧ t.blk = s.blk ∧
      t.responses = s.responses ++ .data (BitVec.setWidth 32 s.blk.outlen) ::
        (s.blk.out.take l).map fun v => .data (BitVec.setWidth 32 v)) ∧
    ∃ (es : List HostEvent) (t : State), es = (copyBack s.blk l).map (HostOp.event s.cfg) ∧ es.length = 2 * l ∧
      Host.Core.run core (2 * l) { s with pending := es } = .next t ∧ t.pending = [] ∧
      t.blk = { s.blk with inp := s.blk.out.take l ++ s.blk.inp.drop l } ∧
      t.responses = s.responses ++ (s.blk.out.take l).flatMap (fun v => [.data (BitVec.setWidth 32 v), .written]) ∧
      ∀ i < l, ∃ v : Word32,
        es[2 * i]? = some (.read (wordAt s.cfg (0x2000 + 4 * i))) ∧
        t.responses[s.responses.length + 2 * i]? = some (.data v) ∧
        es[2 * i + 1]? = some (.write (wordAt s.cfg (0x1000 + 4 * i)) v)

/-- R81 (60_exceptions.md): an idle block holds its state. -/
def Obligations.IdleBlockHoldsItsState : Prop :=
  ∀ s : State, s.pending = [] → step s = .next s

/-! ### Reset -/

/-- R82 and R84 (70_reset_and_hazards.md): a reset gives every element its reset value, whatever the state was, and
has no other effect. -/
def Obligations.ResetClearsEveryElement : Prop :=
  ∀ (s : State) rest, s.pending = .reset :: rest →
    step s = .next { s with
      pending := rest
      blk := { done := false, err := 0#4, keylen := 0#8, len := 0#16, outlen := 0#16
               key := List.replicate s.cfg.nMax 0#8
               inp := List.replicate s.cfg.lMax 0#5
               out := List.replicate s.cfg.lMax 0#5 } }

/-- From R83 (70_reset_and_hazards.md): a reset during an outstanding CMD write leaves exactly the state of R82, whatever
the word, and the host's access faults. That the fault carries RESET_RESP and stands among the responses as the access's
end is the MODEL's form of it (log 5). -/
def Obligations.ResetAbandonsTheOutstandingCommand : Prop :=
  ∀ (s : State) rest w, s.pending = .resetDuringCmd w :: rest →
    ∃ t, step { s with pending := .reset :: rest } = .next t ∧
      step s = .next { t with responses := s.responses ++ [.fault (.abandonedByReset s.cfg.resetResp)] }

/-- R29 (10_state.md): the reset values; and an ENCODE or DECODE straight after reset ends with MALFORMED_KEY. -/
def Obligations.ResetValues : Prop :=
  ∀ c : Config,
    (State.atReset c).blk = { done := false, err := 0#4, keylen := 0x00#8, len := 0x0000#16, outlen := 0x0000#16
                              key := List.replicate c.nMax 0x00#8
                              inp := List.replicate c.lMax 0b00000#5
                              out := List.replicate c.lMax 0b00000#5 } ∧
    paramsWord (State.atReset c).cfg = paramsWord c ∧
    ∀ i : Instr, ∃ t, step ((State.atReset c).withFetchWord 32 (encodeWord i).toNat) = .next t ∧ t.blk.err = 1#4

/-! ### Invariants -/

/-- Every step keeps the invariant: legal parameters, arrays of the spec's counts (R15), only legal result codes (R17,
R68), OUTLEN within OUT, OUT zero beyond OUTLEN (R24), and no output with an error code (R69) or before the first
command (R29). -/
def Obligations.StepKeepsTheInvariant : Prop :=
  ∀ s t : State, s.Inv → step s = .next t → t.Inv

/-- Reset gives a state with the invariant, for all legal parameters (R29, 10_state.md). `State.reset` is the reset
state for the parameters of the test vectors, the MODEL's choice (log 2). -/
def Obligations.ResetMeetsTheInvariant : Prop :=
  (∀ c : Config, c.Wf → (State.atReset c).Inv) ∧ State.reset = State.atReset Config.testVectors ∧ State.reset.Inv

/-- Nothing the host does stops the machine (R40, R41, 20_memory.md; R73, 60_exceptions.md): every step takes exactly
the host's next event, and an access gets exactly one entry in the MODEL's list of responses (log 1). A bus error is
such an entry and does not stop the machine (log 4); so is the fault of a CMD write that a reset abandons, for which R83
leaves open whether the bus gives a response (log 5). -/
def Obligations.EveryHostEventIsTaken : Prop :=
  ∀ s : State, s.Inv → ∃ t, step s = .next t ∧ t.pending = s.pending.tail ∧
    ∃ rs, t.responses = s.responses ++ rs ∧ rs.length = (s.pending.head?.toList.filter IsAccess).length

/-- Every outstanding access eventually ends (R91, 70_reset_and_hazards.md; R40, 20_memory.md): from a state with the
invariant, as many steps as the host has events take them all, with one entry for each access in the MODEL's list of
responses (log 1; each access ends in its own step, log 10). A CMD write abandoned by a reset counts by its fault,
whether or not the bus gives it a response (log 5), and a bus error by its fault (log 4). -/
def Obligations.EveryAccessResponds : Prop :=
  ∀ s : State, s.Inv → ∃ t : State, Host.Core.run core s.pending.length s = .next t ∧ t.pending = [] ∧ t.Inv ∧
    t.responses.length = s.responses.length + (s.pending.filter IsAccess).length
end

