-- ==== Sys2Proof/Laws/AddressMap.lean ====
section
/-! SUPPORT. The address map (R32, 20_memory.md): an offset and its register. -/

namespace Sys2Proof.Machine

/-- Which offsets an array covers, and which element each is. -/
theorem arrayIndex_eq_some {start count off i : Nat} :
    arrayIndex start count off = some i ↔
      start ≤ off ∧ off < start + 4 * count ∧ (off - start) / 4 = i := by
  unfold arrayIndex
  split <;> simp_all

theorem arrayIndex_eq_none {start count off : Nat} :
    arrayIndex start count off = none ↔ off < start ∨ start + 4 * count ≤ off := by
  unfold arrayIndex
  split <;> simp_all
  omega

/-- The register at a register's own offset is that register. -/
theorem regAt_offset {c : Config} (hc : c.Wf) {r : Reg} (hr : r.inRange c = true) :
    regAt c r.offset = some r := by
  obtain ⟨-, h1, -, h2, -⟩ := hc
  cases r with
  | key i =>
    simp only [Reg.inRange, decide_eq_true_eq] at hr
    have hk : arrayIndex 0x0100 c.nMax (0x0100 + 4 * i) = some i := arrayIndex_eq_some.2 ⟨by omega, by omega, by omega⟩
    have e : ∀ k < 0x100, ¬ 0x0100 + 4 * i = k := by omega
    simp [regAt, Reg.offset, hk, e]
  | inp i =>
    simp only [Reg.inRange, decide_eq_true_eq] at hr
    have hk : arrayIndex 0x0100 c.nMax (0x1000 + 4 * i) = none := arrayIndex_eq_none.2 (by omega)
    have hi : arrayIndex 0x1000 c.lMax (0x1000 + 4 * i) = some i := arrayIndex_eq_some.2 ⟨by omega, by omega, by omega⟩
    have e : ∀ k < 0x100, ¬ 0x1000 + 4 * i = k := by omega
    simp [regAt, Reg.offset, hk, hi, e]
  | out i =>
    simp only [Reg.inRange, decide_eq_true_eq] at hr
    have hk : arrayIndex 0x0100 c.nMax (0x2000 + 4 * i) = none := arrayIndex_eq_none.2 (by omega)
    have hi : arrayIndex 0x1000 c.lMax (0x2000 + 4 * i) = none := arrayIndex_eq_none.2 (by omega)
    have ho : arrayIndex 0x2000 c.lMax (0x2000 + 4 * i) = some i := arrayIndex_eq_some.2 ⟨by omega, by omega, by omega⟩
    have e : ∀ k < 0x100, ¬ 0x2000 + 4 * i = k := by omega
    simp [regAt, Reg.offset, hk, hi, ho, e]
  | cmd => rfl
  | status => rfl
  | keylen => rfl
  | len => rfl
  | outlen => rfl
  | params => rfl

/-- A register that an aligned offset addresses exists, and has that offset. -/
theorem regAt_eq_some {c : Config} {off : Nat} {r : Reg} (ha : off % 4 = 0) (h : regAt c off = some r) :
    r.inRange c = true ∧ r.offset = off := by
  unfold regAt at h
  split at h
  · cases h; subst_vars; exact ⟨rfl, rfl⟩
  split at h
  · cases h; subst_vars; exact ⟨rfl, rfl⟩
  split at h
  · cases h; subst_vars; exact ⟨rfl, rfl⟩
  split at h
  · cases h; subst_vars; exact ⟨rfl, rfl⟩
  split at h
  · cases h; subst_vars; exact ⟨rfl, rfl⟩
  split at h
  · cases h; subst_vars; exact ⟨rfl, rfl⟩
  split at h
  · next i _ _ hk => cases h; have := arrayIndex_eq_some.1 hk; simp [Reg.inRange, Reg.offset]; omega
  · next i _ _ hk => cases h; have := arrayIndex_eq_some.1 hk; simp [Reg.inRange, Reg.offset]; omega
  · next i _ _ hk => cases h; have := arrayIndex_eq_some.1 hk; simp [Reg.inRange, Reg.offset]; omega
  · cases h

/-- The legal access to a register that exists reaches it. -/
theorem accessReg_access {c : Config} (hc : c.Wf) {r : Reg} (hr : r.inRange c = true) :
    accessReg c (r.access c) = some r := by
  have hb : r.offset < Config.windowBytes ∧ r.offset % 4 = 0 := by
    obtain ⟨-, h1, -, h2, -⟩ := hc
    cases r <;> simp [Reg.inRange, Reg.offset, Config.windowBytes] at * <;> omega
  have hw : (r.access c).WellFormed c := by
    simp [Access.WellFormed, Reg.access, hb]
  rw [accessReg, if_pos hw]
  simpa [Reg.access] using regAt_offset hc hr

/-- CMD is at the base of the window, whatever the parameters. -/
@[simp] theorem accessReg_cmd (c : Config) : accessReg c (Reg.cmd.access c) = some .cmd := by
  simp [accessReg, Access.WellFormed, Reg.access, Reg.offset, Config.windowBytes, regAt]

/-- The register a legal access reaches exists, and its offset is the access's. -/
theorem accessReg_eq_some {c : Config} {a : Access} {r : Reg} (h : accessReg c a = some r) :
    a.WellFormed c ∧ r.inRange c = true ∧ a.addr = c.base + r.offset := by
  unfold accessReg at h
  split at h
  · next hw =>
    obtain ⟨h1, h2⟩ := regAt_eq_some hw.2.2.2.2 h
    exact ⟨hw, h1, by have := hw.2.2.1; omega⟩
  · cases h

end Sys2Proof.Machine
end

