-- ==== Sys2Proof/Laws/Permute.lean ====
section
/-! SUPPORT. What the transforms write: the index maps are one-to-one and in range (R55, 40_permute.md), so each
output position is written once. -/

namespace Sys2Proof.Machine

/-! ### Sequences -/

theorem symAt_of_length_le {xs : List Sym} {p : Nat} (h : xs.length ≤ p) : symAt xs p = 0#5 := by
  rw [symAt, List.getD_eq_default _ _ h]

theorem symAt_set (xs : List Sym) (i p : Nat) (v : Sym) (hi : i < xs.length) :
    symAt (xs.set i v) p = if p = i then v else symAt xs p := by
  unfold symAt
  rcases eq_or_ne p i with rfl | h
  · simp [List.getD_eq_getElem?_getD, hi]
  · simp [List.getD_eq_getElem?_getD, List.getElem?_set_ne (Ne.symm h), h]

@[simp] theorem symAt_replicate_zero (k p : Nat) : symAt (List.replicate k 0#5) p = 0#5 := by
  unfold symAt
  by_cases h : p < k
  · simp [List.getD_eq_getElem?_getD, h]
  · simp [List.getD_eq_getElem?_getD, h]

theorem ext_symAt {xs ys : List Sym} (hl : xs.length = ys.length)
    (h : ∀ p < xs.length, symAt xs p = symAt ys p) : xs = ys := by
  apply List.ext_getElem hl
  intro p hp hp'
  have := h p hp
  simpa [symAt, List.getD_eq_getElem?_getD, hp, hp'] using this

@[simp] theorem length_writePrefix (xs ys : List Sym) (h : ys.length ≤ xs.length) :
    (writePrefix xs ys).length = xs.length := by
  simp [writePrefix]; omega

theorem symAt_writePrefix (xs ys : List Sym) (p : Nat) :
    symAt (writePrefix xs ys) p = if p < ys.length then symAt ys p else symAt xs p := by
  unfold symAt writePrefix
  split
  · simp [List.getD_eq_getElem?_getD, List.getElem?_append_left, *]
  · rename_i h
    rw [List.getD_append_right _ _ _ _ (by omega)]
    simp [List.getD_eq_getElem?_getD, List.getElem?_drop, show ys.length + (p - ys.length) = p by omega]

/-! ### Cells and index maps -/

theorem mem_cells {n rows : Nat} {cell : Nat × Nat} : cell ∈ cells n rows ↔ cell.1 < n ∧ cell.2 < rows := by
  obtain ⟨c, r⟩ := cell
  simp [cells]

theorem rowMajor_lt {n rows : Nat} {cell : Nat × Nat} (hc : cell.1 < n) (hr : cell.2 < rows) :
    rowMajor n cell < n * rows := by
  unfold rowMajor
  calc cell.2 * n + cell.1 < cell.2 * n + n := by omega
    _ = (cell.2 + 1) * n := by ring
    _ ≤ rows * n := Nat.mul_le_mul_right n hr
    _ = n * rows := Nat.mul_comm ..

/-- A number below a multiple of `k` splits into quotient and remainder in one way only. -/
theorem quotient_remainder_unique {k a b a' b' : Nat} (hb : b < k) (hb' : b' < k)
    (h : a * k + b = a' * k + b') : a = a' ∧ b = b' := by
  have div_mod (x y : Nat) (hy : y < k) : (x * k + y) / k = x ∧ (x * k + y) % k = y :=
    ⟨by rw [Nat.add_comm, Nat.add_mul_div_right _ _ (by omega), Nat.div_eq_of_lt hy, Nat.zero_add],
      by rw [Nat.add_comm, Nat.add_mul_mod_self_right, Nat.mod_eq_of_lt hy]⟩
  have h1 := div_mod a b hb
  have h2 := div_mod a' b' hb'
  rw [h] at h1
  exact ⟨h1.1.symm.trans h2.1, h1.2.symm.trans h2.2⟩

theorem rowMajor_inj {n : Nat} {x y : Nat × Nat} (hx : x.1 < n) (hy : y.1 < n)
    (h : rowMajor n x = rowMajor n y) : x = y :=
  have ⟨hr, hc⟩ := quotient_remainder_unique hx hy h
  Prod.ext hc hr

theorem colMajor_lt {n rows : Nat} {key : List KeyWord} {cell : Nat × Nat} (hk : KeyValid n key)
    (hc : cell.1 < n) (hr : cell.2 < rows) : colMajor key rows cell < n * rows := by
  have hv := (hk.2.1 _ hc)
  unfold colMajor
  calc (keyVal key cell.1 - 1) * rows + cell.2 < (keyVal key cell.1 - 1) * rows + rows := by omega
    _ = (keyVal key cell.1 - 1 + 1) * rows := by ring
    _ ≤ n * rows := Nat.mul_le_mul_right rows (by omega)

theorem colMajor_inj {n rows : Nat} {key : List KeyWord} {x y : Nat × Nat} (hk : KeyValid n key)
    (hx : x.1 < n ∧ x.2 < rows) (hy : y.1 < n ∧ y.2 < rows)
    (h : colMajor key rows x = colMajor key rows y) : x = y := by
  obtain ⟨hv, hr⟩ := quotient_remainder_unique hx.2 hy.2 h
  have bx := hk.2.1 _ hx.1
  have b := hk.2.1 _ hy.1
  refine Prod.ext ?_ hr
  by_contra hne
  exact hk.2.2 _ hx.1 _ hy.1 hne (by omega)

/-! ### What the assignments leave -/

@[simp] theorem length_scatter (dst srcIx : Nat × Nat → Nat) (src : List Sym) (cs : List (Nat × Nat))
    (buf : List Sym) : (scatter dst srcIx src cs buf).length = buf.length := by
  induction cs generalizing buf with
  | nil => rfl
  | cons x xs ih => simpa [scatter] using ih (buf.set (dst x) (symAt src (srcIx x)))

/-- A position that no assignment names keeps its symbol. -/
theorem symAt_scatter_of_not_mem (dst srcIx : Nat × Nat → Nat) (src : List Sym) (cs : List (Nat × Nat))
    (buf : List Sym) (p : Nat) (hp : ∀ x ∈ cs, dst x ≠ p) :
    symAt (scatter dst srcIx src cs buf) p = symAt buf p := by
  induction cs generalizing buf with
  | nil => rfl
  | cons x xs ih =>
    have hx : p ≠ dst x := fun e => hp x (by simp) e.symm
    have := ih (buf.set (dst x) (symAt src (srcIx x))) fun y hy => hp y (by simp [hy])
    simp only [scatter, List.foldl_cons] at this ⊢
    rw [this]
    unfold symAt
    simp [List.getD_eq_getElem?_getD, List.getElem?_set_ne (Ne.symm hx)]

/-- Where the assignments' destinations are in range and one-to-one, each destination holds its source. -/
theorem symAt_scatter (dst srcIx : Nat × Nat → Nat) (src : List Sym) (cs : List (Nat × Nat)) (buf : List Sym)
    (hlt : ∀ x ∈ cs, dst x < buf.length) (hinj : ∀ x ∈ cs, ∀ y ∈ cs, dst x = dst y → x = y)
    {x : Nat × Nat} (hx : x ∈ cs) : symAt (scatter dst srcIx src cs buf) (dst x) = symAt src (srcIx x) := by
  induction cs generalizing buf with
  | nil => simp at hx
  | cons y ys ih =>
    by_cases hin : x ∈ ys
    · have := ih (buf.set (dst y) (symAt src (srcIx y))) (by simpa using fun z hz => hlt z (by simp [hz]))
        (fun a ha b hb => hinj a (by simp [ha]) b (by simp [hb])) hin
      simpa [scatter] using this
    · obtain rfl : x = y := by simpa [hin] using hx
      have := symAt_scatter_of_not_mem dst srcIx src ys (buf.set (dst x) (symAt src (srcIx x))) (dst x)
        fun z hz e => hin (hinj z (by simp [hz]) x (by simp) e ▸ hz)
      simp only [scatter, List.foldl_cons] at this ⊢
      rw [this, symAt_set _ _ _ _ (hlt x (by simp))]
      simp

/-! ### The transforms -/

@[simp] theorem length_enc (n l : Nat) (key : List KeyWord) (inp : List Sym) : (enc n l key inp).length = l := by
  simp [enc]

@[simp] theorem length_dec (n l : Nat) (key : List KeyWord) (inp : List Sym) : (dec n l key inp).length = l := by
  simp [dec]

/-- Row r of column c goes to the column-major index (R53, 40_permute.md). -/
theorem symAt_enc {n rows : Nat} {key : List KeyWord} (inp : List Sym) (hk : KeyValid n key) {cell : Nat × Nat}
    (hc : cell.1 < n) (hr : cell.2 < rows) :
    symAt (enc n (n * rows) key inp) (colMajor key rows cell) = symAt inp (rowMajor n cell) := by
  have hrows : n * rows / n = rows := Nat.mul_div_cancel_left rows hk.1
  rw [enc, hrows]
  refine symAt_scatter _ _ _ _ _ (fun x hx => ?_) (fun x hx y hy => ?_) (mem_cells.2 ⟨hc, hr⟩)
  · have := mem_cells.1 hx
    simpa using colMajor_lt hk this.1 this.2
  · exact colMajor_inj hk (mem_cells.1 hx) (mem_cells.1 hy)

/-- The column-major index goes to row r of column c (R54, 40_permute.md). -/
theorem symAt_dec {n rows : Nat} {key : List KeyWord} (inp : List Sym) (hk : KeyValid n key) {cell : Nat × Nat}
    (hc : cell.1 < n) (hr : cell.2 < rows) :
    symAt (dec n (n * rows) key inp) (rowMajor n cell) = symAt inp (colMajor key rows cell) := by
  have hrows : n * rows / n = rows := Nat.mul_div_cancel_left rows hk.1
  rw [dec, hrows]
  refine symAt_scatter _ _ _ _ _ (fun x hx => ?_) (fun x hx y hy => ?_) (mem_cells.2 ⟨hc, hr⟩)
  · have := mem_cells.1 hx
    simpa using rowMajor_lt this.1 this.2
  · exact rowMajor_inj (mem_cells.1 hx).1 (mem_cells.1 hy).1

end Sys2Proof.Machine
end

