-- ==== Sys2Proof/Laws/State.lean ====
section
/-! SUPPORT. One lemma per field per update of the state and of the block. -/

namespace Sys2Proof.Machine

variable (s : State) (b b' : Block) (r : Response) (es : List HostEvent) (c : Config)

@[simp] theorem State.withBlk_cfg : (s.withBlk b).cfg = s.cfg := rfl
@[simp] theorem State.withBlk_blk : (s.withBlk b).blk = b := rfl
@[simp] theorem State.withBlk_pending : (s.withBlk b).pending = s.pending := rfl
@[simp] theorem State.withBlk_responses : (s.withBlk b).responses = s.responses := rfl
@[simp] theorem State.withBlk_withBlk : (s.withBlk b).withBlk b' = s.withBlk b' := rfl

@[simp] theorem State.respond_cfg : (s.respond r).cfg = s.cfg := rfl
@[simp] theorem State.respond_blk : (s.respond r).blk = s.blk := rfl
@[simp] theorem State.respond_pending : (s.respond r).pending = s.pending := rfl
@[simp] theorem State.respond_responses : (s.respond r).responses = s.responses ++ [r] := rfl

@[simp] theorem State.withPending_cfg : (s.withPending es).cfg = s.cfg := rfl
@[simp] theorem State.withPending_blk : (s.withPending es).blk = s.blk := rfl
@[simp] theorem State.withPending_pending : (s.withPending es).pending = es := rfl
@[simp] theorem State.withPending_responses : (s.withPending es).responses = s.responses := rfl
@[simp] theorem State.withPending_self : s.withPending s.pending = s := rfl

@[simp] theorem Block.writeKeylen_keylen (w : Word32) : (b.writeKeylen w).keylen = lowBits 8 w := rfl
@[simp] theorem Block.writeKeylen_len (w : Word32) : (b.writeKeylen w).len = b.len := rfl
@[simp] theorem Block.writeKeylen_key (w : Word32) : (b.writeKeylen w).key = b.key := rfl
@[simp] theorem Block.writeKeylen_inp (w : Word32) : (b.writeKeylen w).inp = b.inp := rfl
@[simp] theorem Block.writeKeylen_out (w : Word32) : (b.writeKeylen w).out = b.out := rfl
@[simp] theorem Block.writeKeylen_outlen (w : Word32) : (b.writeKeylen w).outlen = b.outlen := rfl
@[simp] theorem Block.writeKeylen_err (w : Word32) : (b.writeKeylen w).err = b.err := rfl
@[simp] theorem Block.writeKeylen_done (w : Word32) : (b.writeKeylen w).done = b.done := rfl

@[simp] theorem Block.writeLen_len (w : Word32) : (b.writeLen w).len = lowBits 16 w := rfl
@[simp] theorem Block.writeLen_keylen (w : Word32) : (b.writeLen w).keylen = b.keylen := rfl
@[simp] theorem Block.writeLen_key (w : Word32) : (b.writeLen w).key = b.key := rfl
@[simp] theorem Block.writeLen_inp (w : Word32) : (b.writeLen w).inp = b.inp := rfl
@[simp] theorem Block.writeLen_out (w : Word32) : (b.writeLen w).out = b.out := rfl
@[simp] theorem Block.writeLen_outlen (w : Word32) : (b.writeLen w).outlen = b.outlen := rfl
@[simp] theorem Block.writeLen_err (w : Word32) : (b.writeLen w).err = b.err := rfl
@[simp] theorem Block.writeLen_done (w : Word32) : (b.writeLen w).done = b.done := rfl

@[simp] theorem Block.writeKey_key (i : Nat) (w : Word32) : (b.writeKey i w).key = b.key.set i (lowBits 8 w) := rfl
@[simp] theorem Block.writeKey_keylen (i : Nat) (w : Word32) : (b.writeKey i w).keylen = b.keylen := rfl
@[simp] theorem Block.writeKey_len (i : Nat) (w : Word32) : (b.writeKey i w).len = b.len := rfl
@[simp] theorem Block.writeKey_inp (i : Nat) (w : Word32) : (b.writeKey i w).inp = b.inp := rfl
@[simp] theorem Block.writeKey_out (i : Nat) (w : Word32) : (b.writeKey i w).out = b.out := rfl
@[simp] theorem Block.writeKey_outlen (i : Nat) (w : Word32) : (b.writeKey i w).outlen = b.outlen := rfl
@[simp] theorem Block.writeKey_err (i : Nat) (w : Word32) : (b.writeKey i w).err = b.err := rfl
@[simp] theorem Block.writeKey_done (i : Nat) (w : Word32) : (b.writeKey i w).done = b.done := rfl

@[simp] theorem Block.writeInp_inp (i : Nat) (w : Word32) : (b.writeInp i w).inp = b.inp.set i (lowBits 5 w) := rfl
@[simp] theorem Block.writeInp_keylen (i : Nat) (w : Word32) : (b.writeInp i w).keylen = b.keylen := rfl
@[simp] theorem Block.writeInp_len (i : Nat) (w : Word32) : (b.writeInp i w).len = b.len := rfl
@[simp] theorem Block.writeInp_key (i : Nat) (w : Word32) : (b.writeInp i w).key = b.key := rfl
@[simp] theorem Block.writeInp_out (i : Nat) (w : Word32) : (b.writeInp i w).out = b.out := rfl
@[simp] theorem Block.writeInp_outlen (i : Nat) (w : Word32) : (b.writeInp i w).outlen = b.outlen := rfl
@[simp] theorem Block.writeInp_err (i : Nat) (w : Word32) : (b.writeInp i w).err = b.err := rfl
@[simp] theorem Block.writeInp_done (i : Nat) (w : Word32) : (b.writeInp i w).done = b.done := rfl

@[simp] theorem Block.clearOutput_out : (b.clearOutput c).out = List.replicate c.lMax 0#5 := rfl
@[simp] theorem Block.clearOutput_outlen : (b.clearOutput c).outlen = 0#16 := rfl
@[simp] theorem Block.clearOutput_keylen : (b.clearOutput c).keylen = b.keylen := rfl
@[simp] theorem Block.clearOutput_len : (b.clearOutput c).len = b.len := rfl
@[simp] theorem Block.clearOutput_key : (b.clearOutput c).key = b.key := rfl
@[simp] theorem Block.clearOutput_inp : (b.clearOutput c).inp = b.inp := rfl
@[simp] theorem Block.clearOutput_err : (b.clearOutput c).err = b.err := rfl
@[simp] theorem Block.clearOutput_done : (b.clearOutput c).done = b.done := rfl

@[simp] theorem Block.cmdError_out (e : ErrCode) : (b.cmdError c e).out = List.replicate c.lMax 0#5 := rfl
@[simp] theorem Block.cmdError_outlen (e : ErrCode) : (b.cmdError c e).outlen = 0#16 := rfl
@[simp] theorem Block.cmdError_err (e : ErrCode) : (b.cmdError c e).err = e := rfl
@[simp] theorem Block.cmdError_done (e : ErrCode) : (b.cmdError c e).done = true := rfl
@[simp] theorem Block.cmdError_keylen (e : ErrCode) : (b.cmdError c e).keylen = b.keylen := rfl
@[simp] theorem Block.cmdError_len (e : ErrCode) : (b.cmdError c e).len = b.len := rfl
@[simp] theorem Block.cmdError_key (e : ErrCode) : (b.cmdError c e).key = b.key := rfl
@[simp] theorem Block.cmdError_inp (e : ErrCode) : (b.cmdError c e).inp = b.inp := rfl

@[simp] theorem Block.cmdSuccess_out (xs : List Sym) :
    (b.cmdSuccess c xs).out = writePrefix (List.replicate c.lMax 0#5) xs := rfl
@[simp] theorem Block.cmdSuccess_outlen (xs : List Sym) : (b.cmdSuccess c xs).outlen = b.len := rfl
@[simp] theorem Block.cmdSuccess_err (xs : List Sym) : (b.cmdSuccess c xs).err = errNone := rfl
@[simp] theorem Block.cmdSuccess_done (xs : List Sym) : (b.cmdSuccess c xs).done = true := rfl
@[simp] theorem Block.cmdSuccess_keylen (xs : List Sym) : (b.cmdSuccess c xs).keylen = b.keylen := rfl
@[simp] theorem Block.cmdSuccess_len (xs : List Sym) : (b.cmdSuccess c xs).len = b.len := rfl
@[simp] theorem Block.cmdSuccess_key (xs : List Sym) : (b.cmdSuccess c xs).key = b.key := rfl
@[simp] theorem Block.cmdSuccess_inp (xs : List Sym) : (b.cmdSuccess c xs).inp = b.inp := rfl

end Sys2Proof.Machine
end

