-- ==== Sys2Proof/Laws/Ops.lean ====
section
/-! SUPPORT. One lemma per shared operation that says what it can do, and that every operation keeps the arrays'
counts. -/

namespace Sys2Proof.Machine

/-- The checks pass exactly on legal operands (R56 to R59, 40_permute.md). -/
theorem operandError_eq_none_iff (c : Config) (b : Block) :
    operandError c b = errNone ↔ b.OperandsLegal c := by
  unfold operandError Block.OperandsLegal
  by_cases h1 : c.nMax < b.n ∨ c.lMax < b.textLen
  · rw [if_pos h1]
    constructor
    · intro h; exact absurd h (by decide)
    · rintro ⟨h, h', -⟩; omega
  · rw [if_neg h1]
    by_cases h2 : KeyValid b.n b.key
    · rw [if_neg (not_not.2 h2)]
      by_cases h3 : b.textLen % b.n = 0
      · rw [if_neg (not_not.2 h3)]
        exact ⟨fun _ => ⟨by omega, by omega, h2, h3⟩, fun _ => rfl⟩
      · rw [if_pos h3]
        exact ⟨fun h => absurd h (by decide), fun h => absurd h.2.2.2 h3⟩
    · rw [if_pos h2]
      exact ⟨fun h => absurd h (by decide), fun h => absurd h.2.2.1 h2⟩

/-- The operand checks give only legal codes (R68, 60_exceptions.md). -/
theorem operandError_legal (c : Config) (b : Block) : ErrLegal (operandError c b) := by
  unfold operandError
  split
  · decide
  · split
    · decide
    · split <;> decide

/-- A legal command succeeds on legal operands, and otherwise fails with the first failing check's code. -/
theorem runTransform_cases (c : Config) (f : Nat → Nat → List KeyWord → List Sym → List Sym) (b : Block) :
    (b.OperandsLegal c ∧ b.runTransform c f = b.cmdSuccess c (f b.n b.textLen b.key b.inp)) ∨
      (operandError c b ≠ errNone ∧ b.runTransform c f = b.cmdError c (operandError c b)) := by
  unfold Block.runTransform
  by_cases h : operandError c b = errNone
  · exact .inl ⟨(operandError_eq_none_iff c b).1 h, if_pos h⟩
  · exact .inr ⟨h, if_neg h⟩

theorem runTransform_err (c : Config) (f : Nat → Nat → List KeyWord → List Sym → List Sym) (b : Block) :
    (b.runTransform c f).err = operandError c b := by
  rcases runTransform_cases c f b with ⟨h, e⟩ | ⟨-, e⟩ <;> rw [e]
  · exact ((operandError_eq_none_iff c b).2 h).symm
  · rfl

theorem runTransform_done (c : Config) (f : Nat → Nat → List KeyWord → List Sym → List Sym) (b : Block) :
    (b.runTransform c f).done = true := by
  rcases runTransform_cases c f b with ⟨-, e⟩ | ⟨-, e⟩ <;> rw [e] <;> rfl

/-- A command never writes its inputs (R28, 10_state.md). -/
theorem runTransform_sameInputs (c : Config) (f : Nat → Nat → List KeyWord → List Sym → List Sym) (b : Block) :
    b.SameInputs (b.runTransform c f) := by
  rcases runTransform_cases c f b with ⟨-, e⟩ | ⟨-, e⟩ <;> rw [e] <;> exact ⟨rfl, rfl, rfl, rfl⟩

theorem cmdError_sized {c : Config} {b : Block} (e : ErrCode) (h : b.Sized c) : (b.cmdError c e).Sized c :=
  ⟨h.1, h.2.1, by simp⟩

theorem runTransform_sized {c : Config} {f : Nat → Nat → List KeyWord → List Sym → List Sym} {b : Block}
    (hf : ∀ n l key inp, (f n l key inp).length = l) (h : b.Sized c) : (b.runTransform c f).Sized c := by
  rcases runTransform_cases c f b with ⟨hl, e⟩ | ⟨-, e⟩ <;> rw [e]
  · refine ⟨h.1, h.2.1, ?_⟩
    rw [Block.cmdSuccess_out, length_writePrefix _ _ (by simpa [hf] using hl.2.1), List.length_replicate]
  · exact cmdError_sized _ h

theorem writeKeylen_sized {c : Config} {b : Block} (w : Word32) (h : b.Sized c) : (b.writeKeylen w).Sized c := h

theorem writeLen_sized {c : Config} {b : Block} (w : Word32) (h : b.Sized c) : (b.writeLen w).Sized c := h

theorem writeKey_sized {c : Config} {b : Block} (i : Nat) (w : Word32) (h : b.Sized c) :
    (b.writeKey i w).Sized c := ⟨by simpa using h.1, h.2⟩

theorem writeInp_sized {c : Config} {b : Block} (i : Nat) (w : Word32) (h : b.Sized c) :
    (b.writeInp i w).Sized c := ⟨h.1, by simpa using h.2.1, h.2.2⟩

theorem atReset_sized (c : Config) : (Block.atReset c).Sized c := by simp [Block.Sized, Block.atReset]

end Sys2Proof.Machine
end

