-- ==== Sys2Proof/Laws/PerInstr.lean ====
section
/-! SUPPORT. Per-instruction statements about the commands as syntax. -/

namespace Sys2Proof.Laws

/-- The fields of a command's word are those of its row of the opcode map (R45, R46, 30_encoding.md): Z is zero
and OP is one of the two legal codes. -/
def WordShape.Statement (i : Instr) : Prop :=
  zField (encodeWord i) = 0#30 ∧ opField (encodeWord i) = if i = .encode then 0b01#2 else 0b10#2

theorem WordShape.encode : WordShape.Statement .encode := ⟨by decide, by decide⟩

theorem WordShape.decode : WordShape.Statement .decode := ⟨by decide, by decide⟩

end Sys2Proof.Laws
end

