-- ==== Sys2Proof/Laws/Step.lean ====
section
/-! SUPPORT. What one step can do. -/

namespace Sys2Proof.Machine

/-- What a command word does to the block: `Execute(w)` of R59 (40_permute.md) as one of three cases. -/
theorem execute_cases (w : Word32) (s : State) :
    (decodeWord w = .ok .encode ∧ execute w s = .next (s.withBlk (s.blk.runTransform s.cfg enc))) ∨
    (decodeWord w = .ok .decode ∧ execute w s = .next (s.withBlk (s.blk.runTransform s.cfg dec))) ∨
    ((∃ e, decodeWord w = .error e) ∧ execute w s = .next (s.withBlk (s.blk.cmdError s.cfg errIllegalCmd))) := by
  unfold execute
  rcases h : decodeWord w with e | i
  · exact .inr (.inr ⟨⟨e, rfl⟩, rfl⟩)
  · cases i
    · exact .inl ⟨rfl, rfl⟩
    · exact .inr (.inl ⟨rfl, rfl⟩)

/-- The block after a host write of `w` to a register it may write; none for a read-only register. -/
def writtenBlk (c : Config) (b : Block) (w : Word32) : Reg → Option Block
  | .cmd => some (match decodeWord w with
    | .ok .encode => b.runTransform c enc
    | .ok .decode => b.runTransform c dec
    | .error _ => b.cmdError c errIllegalCmd)
  | .keylen => some (b.writeKeylen w)
  | .len => some (b.writeLen w)
  | .key i => some (b.writeKey i w)
  | .inp i => some (b.writeInp i w)
  | .status => none
  | .outlen => none
  | .params => none
  | .out _ => none

/-- A host write either writes a register's block and gets its response, or faults. -/
theorem busWrite_eq (a : Access) (w : Word32) (s : State) :
    busWrite a w s = match (accessReg s.cfg a).bind (writtenBlk s.cfg s.blk w) with
      | some b => .next ((s.withBlk b).respond .written)
      | none => .fault (.busError a.addr) := by
  unfold busWrite
  rcases accessReg s.cfg a with _ | r
  · rfl
  · cases r <;> try rfl
    simp only [Option.bind_some, writtenBlk]
    rcases execute_cases w s with ⟨h, e⟩ | ⟨h, e⟩ | ⟨⟨_, h⟩, e⟩ <;> rw [e, h] <;> rfl

/-- A bus error changes no state: the access gets the fault, and nothing else happens (R33, 20_memory.md). -/
abbrev busErrorState (s : State) (a : Access) : State := s.respond (.fault (.busError a.addr))

theorem perform_write (s : State) (a : Access) (w : Word32) :
    perform s (.write a w) = .next (match (accessReg s.cfg a).bind (writtenBlk s.cfg s.blk w) with
      | some b => (s.withBlk b).respond .written
      | none => busErrorState s a) := by
  rw [perform, busWrite_eq]
  rcases (accessReg s.cfg a).bind (writtenBlk s.cfg s.blk w) <;> rfl

theorem perform_read (s : State) (a : Access) (h : ErrLegal s.blk.err ∨ accessReg s.cfg a ≠ some .status) :
    perform s (.read a) = .next (match accessReg s.cfg a with
      | some r => s.respond (.data (regValue s.cfg s.blk r))
      | none => busErrorState s a) := by
  rw [perform, busRead]
  rcases ha : accessReg s.cfg a with _ | r
  · rfl
  · have : ¬ (r = .status ∧ ¬ ErrLegal s.blk.err) := by
      rintro ⟨rfl, hn⟩
      exact h.elim hn (fun h => h ha)
    simp only [if_neg this]
    rfl

/-- The only stop of a step: a read of STATUS that holds a code that is never produced (log 6). -/
theorem perform_read_refused (s : State) (a : Access) (h : ¬ ErrLegal s.blk.err)
    (ha : accessReg s.cfg a = some .status) :
    perform s (.read a) = .refused (.reservedErrCode s.blk.err) := by
  rw [perform, busRead, ha]
  simp only [true_and, if_pos h]
  rfl

@[simp] theorem step_nil (s : State) (h : s.pending = []) : step s = .next s := by
  simp [step, performNext, h]

theorem step_cons {s : State} {e : HostEvent} {rest : List HostEvent} (h : s.pending = e :: rest) :
    step s = perform (s.withPending rest) e := by
  simp [step, performNext, h]

/-- Everything a host event can do, where it answers a next state. -/
theorem perform_cases {s t : State} {e : HostEvent} (h : perform s e = .next t) :
    (∃ a r, e = .read a ∧ t = s.respond r) ∨
    (∃ a w, e = .write a w ∧ ((∃ r b, accessReg s.cfg a = some r ∧ writtenBlk s.cfg s.blk w r = some b ∧
        t = (s.withBlk b).respond .written) ∨
      ((accessReg s.cfg a).bind (writtenBlk s.cfg s.blk w) = none ∧ t = busErrorState s a))) ∨
    (e = .reset ∧ t = resetBlock s) ∨
    (∃ w, e = .resetDuringCmd w ∧ t = (resetBlock s).respond (.fault (.abandonedByReset s.cfg.resetResp))) := by
  cases e with
  | read a =>
    by_cases hs : ErrLegal s.blk.err ∨ accessReg s.cfg a ≠ some .status
    · rw [perform_read s a hs] at h
      cases h
      rcases accessReg s.cfg a with _ | r
      · exact .inl ⟨a, _, rfl, rfl⟩
      · exact .inl ⟨a, _, rfl, rfl⟩
    · rw [not_or, not_not] at hs
      rw [perform_read_refused s a hs.1 hs.2] at h
      cases h
  | write a w =>
    rw [perform_write] at h
    cases h
    refine .inr (.inl ⟨a, w, rfl, ?_⟩)
    rcases ha : accessReg s.cfg a with _ | r
    · exact .inr ⟨rfl, rfl⟩
    · rcases hb : writtenBlk s.cfg s.blk w r with _ | b
      · exact .inr ⟨by simp [hb], by simp [hb]⟩
      · exact .inl ⟨r, b, rfl, hb, by simp [hb]⟩
  | reset => cases h; exact .inr (.inr (.inl ⟨rfl, rfl⟩))
  | resetDuringCmd w => cases h; exact .inr (.inr (.inr ⟨w, rfl, rfl⟩))

/-- A host write keeps the arrays' counts. -/
theorem writtenBlk_sized {c : Config} {b b' : Block} {w : Word32} {r : Reg} (h : b.Sized c)
    (hw : writtenBlk c b w r = some b') : b'.Sized c := by
  cases r <;> simp only [writtenBlk, Option.some.injEq, reduceCtorEq] at hw <;> subst hw
  · rcases decodeWord w with e | (_ | _)
    · exact cmdError_sized _ h
    · exact runTransform_sized length_enc h
    · exact runTransform_sized length_dec h
  · exact writeKeylen_sized w h
  · exact writeLen_sized w h
  · exact writeKey_sized _ w h
  · exact writeInp_sized _ w h

end Sys2Proof.Machine
end

