-- ==== Sys2Proof/Laws/Run.lean ====
section
/-! SUPPORT. Runs of the machine, step by step, the legal accesses as steps, and the accesses of COPYBACK. -/

namespace Sys2Proof.Machine

theorem coreRun_succ (M : Host.Core) {k : Nat} {s t : M.State} (h : M.step s = .next t) :
    M.run (k + 1) s = M.run k t := by
  rw [Host.Core.run, h]

/-- A run that ends in a next state goes on from there. -/
theorem coreRun_append (M : Host.Core) {j k : Nat} {s t : M.State} (h : M.run j s = .next t) :
    M.run (j + k) s = M.run k t := by
  induction j generalizing s with
  | zero => rw [Host.Core.run] at h; cases h; rw [Nat.zero_add]
  | succ j ih =>
    rw [Host.Core.run] at h
    rcases hs : M.step s with s' | r | r <;> rw [hs] at h
    · rw [Nat.succ_add, coreRun_succ M hs]; exact ih h
    · cases h
    · cases h

theorem run_zero (s : State) : Host.Core.run core 0 s = .next s := rfl

theorem run_succ {k : Nat} {s t : State} (h : step s = .next t) :
    Host.Core.run core (k + 1) s = Host.Core.run core k t := coreRun_succ core h

theorem run_append {j k : Nat} {s t : State} (h : Host.Core.run core j s = .next t) :
    Host.Core.run core (j + k) s = Host.Core.run core k t := coreRun_append core h

/-- A legal write to a register the host may write, as a step (R38, 20_memory.md). -/
theorem step_write {s : State} {r : Reg} {w : Word32} {b : Block} {rest : List HostEvent} (hc : s.cfg.Wf)
    (hr : r.inRange s.cfg = true) (hb : writtenBlk s.cfg s.blk w r = some b)
    (hp : s.pending = .write (r.access s.cfg) w :: rest) :
    step s = .next { s with blk := b, pending := rest, responses := s.responses ++ [.written] } := by
  rw [step_cons hp, perform_write]
  simp only [State.withPending_cfg, State.withPending_blk, accessReg_access hc hr, Option.bind_some, hb]
  rfl

/-- A legal read of a register, as a step (R37, 20_memory.md). -/
theorem step_read {s : State} {r : Reg} {rest : List HostEvent} (hc : s.cfg.Wf) (hr : r.inRange s.cfg = true)
    (hs : r ≠ .status ∨ ErrLegal s.blk.err) (hp : s.pending = .read (r.access s.cfg) :: rest) :
    step s = .next { s with
      pending := rest, responses := s.responses ++ [.data (regValue s.cfg s.blk r)] } := by
  rw [step_cons hp, perform_read]
  · simp only [State.withPending_cfg, State.withPending_blk, accessReg_access hc hr]
    rfl
  · simp only [State.withPending_cfg, State.withPending_blk, accessReg_access hc hr]
    exact hs.symm.imp id fun h e => h (Option.some.inj e)

theorem copyBack_succ (b : Block) (l : Nat) :
    copyBack b (l + 1) = copyBack b l ++ [.rd (.out l), .wr (.inp l) (zext32 (symAt b.out l))] := by
  rw [copyBack, List.range_succ, List.flatMap_append]
  rfl

@[simp] theorem length_copyBack (b : Block) (l : Nat) : (copyBack b l).length = 2 * l := by
  induction l with
  | zero => rfl
  | succ l ih => simp [copyBack_succ, ih, Nat.mul_succ]

/-- COPYBACK's operations 2i and 2i + 1 are the read of OUT[i] and the write to IN[i] (R50, 30_encoding.md). -/
theorem getElem?_copyBack (b : Block) {l i : Nat} (h : i < l) :
    (copyBack b l)[2 * i]? = some (.rd (.out i)) ∧
      (copyBack b l)[2 * i + 1]? = some (.wr (.inp i) (zext32 (symAt b.out i))) := by
  induction l with
  | zero => omega
  | succ l ih =>
    have hlen := length_copyBack b l
    rw [copyBack_succ]
    by_cases hi : i < l
    · rw [List.getElem?_append_left (by omega), List.getElem?_append_left (by omega)]
      exact ih hi
    · obtain rfl : i = l := by omega
      rw [List.getElem?_append_right (by omega), List.getElem?_append_right (by omega), hlen]
      simp

end Sys2Proof.Machine
end

