-- ==== Sys2Proof/Tests/Slice0.lean ====
section
/-! SUPPORT. Smoke tests and vectors of 95_test_vectors.md (their ids stand in the comments), on one step each; and
for each obligation with hypotheses a witness that meets them. -/

namespace Sys2Proof.Tests

open Sys2Proof.Machine Sys2Proof.Claims

/-! ### Helpers -/

def nextState : Host.Outcome State Fault Refusal → Option State
  | .next s => some s
  | .fault _ => none
  | .refused _ => none

def nextBlk (o : Host.Outcome State Fault Refusal) : Option Block := (nextState o).map State.blk

def lastResponse (o : Host.Outcome State Fault Refusal) : Option Response :=
  (nextState o).bind fun s => s.responses.getLast?

/-- A small machine, with a BASE that is not 0. -/
def smallCfg : Config := { nMax := 4, lMax := 8, base := 0x8000, lat := 2, resetResp := true }

/-- A block with the given inputs, after an ENCODE of one symbol. -/
def blkWith (keylen : KeyWord) (key : List KeyWord) (len : LenWord) (inp : List Sym) : Block :=
  { done := true, err := 0#4, keylen := keylen, len := len, outlen := 1#16
    key := key ++ List.replicate (4 - key.length) 0#8
    inp := inp ++ List.replicate (8 - inp.length) 0#5
    out := 7#5 :: List.replicate 7 0#5 }

def small (b : Block) (es : List HostEvent) : State := { cfg := smallCfg, blk := b, pending := es, responses := [] }

/-- V-E6 and V-D5's operands: KEY = (3,1,2), six symbols. -/
def blk312 : Block := blkWith 3#8 [3#8, 1#8, 2#8] 6#16 [0#5, 1#5, 2#5, 3#5, 4#5, 5#5]

def demo : State := small blk312 []

/-- The test vectors' machine right after reset, with one host event. -/
def afterReset (e : HostEvent) : State := { State.reset with pending := [e] }

def rd (off : Nat) : HostEvent := .read (wordAt Config.testVectors off)

def wr (off : Nat) (w : Word32) : HostEvent := .write (wordAt Config.testVectors off) w

/-! ### Well-formedness refuses ill-formed terms -/

theorem test_wf_nMax_zero : ¬ Config.Wf { smallCfg with nMax := 0 } := by decide
theorem test_wf_nMax_65 : ¬ Config.Wf { smallCfg with nMax := 65 } := by decide
theorem test_wf_lMax_zero : ¬ Config.Wf { smallCfg with lMax := 0 } := by decide
theorem test_wf_lMax_1025 : ¬ Config.Wf { smallCfg with lMax := 1025 } := by decide
theorem test_wf_base_unaligned : ¬ Config.Wf { smallCfg with base := 0x4004 } := by decide
theorem test_wf_accepts : Config.Wf smallCfg ∧ Config.Wf { smallCfg with nMax := 64, lMax := 1024 } := by decide
theorem test_wf_instr : Instr.encode.wf = true ∧ Instr.decode.wf = true := by decide
theorem test_wf_wr_status : HostOp.wf smallCfg (.wr .status 0#32) = false := by decide
theorem test_wf_rd_key_4 : HostOp.wf smallCfg (.rd (.key 4)) = false := by decide
theorem test_wf_access_halfword : ¬ Access.WellFormed smallCfg { wordAt smallCfg 8 with width := 2 } := by decide
theorem test_wf_access_lanes : ¬ Access.WellFormed smallCfg { wordAt smallCfg 8 with lanes := 0b0111#4 } := by decide
theorem test_wf_access_misaligned : ¬ Access.WellFormed smallCfg (wordAt smallCfg 6) := by decide
theorem test_wf_access_below : ¬ Access.WellFormed smallCfg { wordAt smallCfg 0 with addr := 0x7FFC } := by decide
theorem test_wf_access_above : ¬ Access.WellFormed smallCfg { wordAt smallCfg 0 with addr := 0xC000 } := by decide

/-! ### Decoding: the words of R46, bit by bit; illegal words of V-X12 to V-X15 -/

theorem test_decode_ENCODE : (decodeWord 0b00000000000000000000000000000001#32).toOption = some .encode := by decide
theorem test_decode_DECODE : (decodeWord 0b00000000000000000000000000000010#32).toOption = some .decode := by decide
theorem test_decode_lanes : (decodeBytes [0x02#8, 0x00#8, 0x00#8, 0x00#8]).toOption = some .decode := by decide
theorem test_decode_big_endian_lanes : (decodeBytes [0x00#8, 0x00#8, 0x00#8, 0x01#8]).toOption = none := by decide
theorem test_decode_short : (decodeBytes [0x01#8, 0x00#8]).toOption = none := by decide
theorem test_decode_illegal : (decodeWord 0x0#32).toOption = none ∧ (decodeWord 0x3#32).toOption = none ∧
    (decodeWord 0x101#32).toOption = none ∧ (decodeWord 0x5#32).toOption = none := by decide
theorem test_decode_table : decodeTableWord 32 1 = some .encode ∧ decodeTableWord 32 2 = some .decode := by decide

/-! ### ENCODE and DECODE -/

/-- V-E6 -/
theorem test_encode_312 : (nextBlk (exec .encode demo)).map (fun b => (b.out, b.outlen, b.err)) =
    some ([1#5, 4#5, 2#5, 5#5, 0#5, 3#5, 0#5, 0#5], 6#16, 0#4) := by decide

/-- V-X8: a malformed key and a length mismatch; the key wins. -/
theorem test_encode_key_before_length :
    (nextBlk (exec .encode (small (blkWith 3#8 [1#8, 1#8, 2#8] 7#16 []) []))).map (fun b => (b.out, b.outlen, b.err)) =
      some (List.replicate 8 0#5, 0#16, 1#4) := by decide

/-- V-D5 -/
theorem test_decode_312 : (nextBlk (exec .decode demo)).map (fun b => (b.out, b.outlen, b.err)) =
    some ([4#5, 0#5, 2#5, 5#5, 1#5, 3#5, 0#5, 0#5], 6#16, 0#4) := by decide

/-- V-X7's shape: a length that is no multiple of the key length. -/
theorem test_decode_length_mismatch :
    (nextBlk (exec .decode (small (blkWith 3#8 [1#8, 2#8, 3#8] 8#16 []) []))).map (fun b => (b.out, b.outlen, b.err)) =
      some (List.replicate 8 0#5, 0#16, 2#4) := by decide

/-- V-X5: ENCODE straight after reset, placed by withFetchWord. -/
theorem test_step_encode_after_reset :
    (nextBlk (step (State.reset.withFetchWord 32 1))).map (fun b => (b.err, b.done)) = some (1#4, true) := by decide

/-- V-X16: an illegal word and a malformed key; the command wins. -/
theorem test_step_illegal_word :
    (nextBlk (step (small (blkWith 3#8 [1#8, 1#8, 2#8] 6#16 []) [cmdWrite smallCfg 0#32]))).map (fun b => (b.err, b.outlen)) =
      some (3#4, 0#16) := by decide

/-! ### The bus -/

/-- V-B1 -/
theorem test_read_params : lastResponse (step (afterReset (rd 0x014))) = some (.data 0x05010010#32) := by decide
/-- V-B3 -/
theorem test_read_cmd : lastResponse (step (afterReset (rd 0x000))) = some (.data 0#32) := by decide
/-- V-B4 -/
theorem test_write_keylen : (nextBlk (step (afterReset (wr 0x008 0x1234#32)))).map Block.keylen = some 0x34#8 := by decide
/-- V-B5 -/
theorem test_write_len : (nextBlk (step (afterReset (wr 0x00C 0xFFFF0014#32)))).map Block.len = some 0x14#16 := by decide
/-- V-B6 -/
theorem test_write_inp : (nextBlk (step (afterReset (wr 0x1000 0xFFFFFFFF#32)))).map (fun b => symAt b.inp 0) =
    some 0x1F#5 := by decide
/-- V-B7 -/
theorem test_write_key : (nextBlk (step (afterReset (wr 0x104 0x102#32)))).map (fun b => keyVal b.key 1) = some 2 := by
  decide
/-- V-B8, V-B9 -/
theorem test_write_read_only :
    lastResponse (step (afterReset (wr 0x004 0#32))) = some (.fault (.busError 0x004)) ∧
    lastResponse (step (afterReset (wr 0x2000 0#32))) = some (.fault (.busError 0x2000)) := by decide
/-- V-B10 -/
theorem test_read_byte : lastResponse (step (afterReset (.read { addr := 4, width := 1, lanes := 0b0001#4 }))) =
    some (.fault (.busError 4)) := by decide
/-- V-B11 to V-B14 -/
theorem test_read_illegal_offsets : ([0x006, 0x140, 0x1400, 0x0018, 0x0800, 0x3000].all fun off =>
    decide (lastResponse (step (afterReset (rd off))) = some (.fault (.busError off)))) = true := by decide
/-- R83 and RESET_RESP -/
theorem test_reset_during_cmd : lastResponse (step { demo with pending := [.resetDuringCmd 1#32] }) =
    some (.fault (.abandonedByReset true)) := by decide

/-- R50's expansion of COPYBACK 2. -/
theorem test_copyback_accesses : (copyBack { blk312 with out := [5#5, 9#5] } 2).map (HostOp.event smallCfg) =
    [.read (wordAt smallCfg 0x2000), .write (wordAt smallCfg 0x1000) 5#32,
     .read (wordAt smallCfg 0x2004), .write (wordAt smallCfg 0x1004) 9#32] := by decide

/-! ### Witnesses: a state and operands that meet each obligation's hypotheses -/

/-- `demo` with a CMD write pending, then a read of STATUS. -/
def cmdPending (w : Word32) : State := { demo with pending := [.write (wordAt smallCfg 0) w, .read (wordAt smallCfg 4)] }

/-- A malformed key. -/
def demoBadKey : State := small (blkWith 3#8 [1#8, 1#8, 2#8] 6#16 []) []

theorem witness_demo_inv : demo.Inv := by decide

theorem witness_CommandBytesDecodeBack : Instr.encode.wf = true ∧ Instr.decode.wf = true ∧
    (decodeBytes [0x01#8, 0x00#8, 0x00#8, 0x00#8]).toOption = some .encode ∧ (0xFFFFFFFF < 2 ^ 32) := by decide

theorem witness_IllegalWordsAreRejectedByName : 4 ≤ (4#32).toNat ∧ 4 ≤ (0xFFFFFFFF#32).toNat := by decide

theorem witness_StepRunsTheDecodedCommand :
    NextIsCmdWrite (cmdPending 1#32) 1#32 [.read (wordAt smallCfg 4)] ∧ decodeWord 1#32 = .ok .encode ∧
    NextIsCmdWrite (cmdPending 2#32) 2#32 [.read (wordAt smallCfg 4)] ∧ decodeWord 2#32 = .ok .decode :=
  ⟨rfl, rfl, rfl, rfl⟩

theorem witness_CommandReportsTheFirstErrorInOrder : NextIsCmdWrite (cmdPending 2#32) 2#32 [.read (wordAt smallCfg 4)] := rfl

/-- Both branches of the code: an illegal word, and a legal word on a malformed key. -/
theorem witness_FailedCommandLeavesNoOutput :
    NextIsCmdWrite (cmdPending 3#32) 3#32 [.read (wordAt smallCfg 4)] ∧ (3#32 ≠ 1#32 ∧ 3#32 ≠ 2#32) ∧
    NextIsCmdWrite { demoBadKey with pending := [.write (wordAt smallCfg 0) 1#32] } 1#32 [] ∧
    operandCode demoBadKey.cfg demoBadKey.blk ≠ 0#4 := ⟨rfl, by decide, rfl, by decide⟩

theorem witness_IllegalWordEndsWithIllegalCmd :
    NextIsCmdWrite (cmdPending 0#32) 0#32 [.read (wordAt smallCfg 4)] ∧ 0#32 ≠ 1#32 ∧ 0#32 ≠ 2#32 := ⟨rfl, by decide, by decide⟩

/-- The success clause at the last cell (c = 2, r = 1), and the failure clause. -/
theorem witness_EncodeEmitsColumnsInKeyOrder :
    operandCode demo.cfg demo.blk = 0#4 ∧ 2 < demo.blk.keylen.toNat ∧ 1 < demo.blk.len.toNat / demo.blk.keylen.toNat ∧
    operandCode demoBadKey.cfg demoBadKey.blk ≠ 0#4 := by decide

/-- As for ENCODE; and states with n = 1 and with L = 0. -/
theorem witness_DecodeReassemblesRows :
    operandCode demo.cfg demo.blk = 0#4 ∧ 2 < demo.blk.keylen.toNat ∧ 1 < demo.blk.len.toNat / demo.blk.keylen.toNat ∧
    operandCode demoBadKey.cfg demoBadKey.blk ≠ 0#4 ∧
    (blkWith 1#8 [1#8] 5#16 []).keylen = 1#8 ∧ (blkWith 3#8 [3#8, 1#8, 2#8] 0#16 []).len = 0#16 := by decide

theorem witness_EncMatchesItsClosedForm : KeyValid 3 [3#8, 1#8, 2#8] ∧ 6 % 3 = 0 ∧ 1 ≤ 6 / 3 ∧ 5 < 6 := by decide

theorem witness_DecSplitsIntoGroups : KeyValid 3 [3#8, 1#8, 2#8] ∧ 6 % 3 = 0 ∧ 2 < 3 ∧ 1 < 6 / 3 := by decide

theorem witness_KeyValidMeansPermutation : KeyValid 3 [3#8, 1#8, 2#8] ∧
    (∀ c < 3, keyVal [3#8, 1#8, 2#8] c = keyVal [3#8, 1#8, 2#8, 9#8] c) ∧
    smallCfg.nMax < (blkWith 5#8 [3#8, 1#8, 2#8] 6#16 []).keylen.toNat := by decide

theorem witness_IndexMapsCoverEachPositionOnce : KeyValid 3 [3#8, 1#8, 2#8] ∧ KeyValid 1 [1#8] ∧ 5 < 3 * 2 := by decide

theorem witness_TransformsReorderTheSymbols :
    KeyValid 3 [3#8, 1#8, 2#8] ∧ 6 % 3 = 0 ∧ 6 ≤ blk312.inp.length := by decide

theorem witness_CommandsAreBlindToSymbolValues : demo.Wf ∧ (∃ t, exec .encode demo = .next t) ∧ ∃ t, exec .decode demo = .next t :=
  ⟨by decide, ⟨_, rfl⟩, ⟨_, rfl⟩⟩

theorem witness_DecodeInvertsEncode : KeyValid 3 [3#8, 1#8, 2#8] ∧ 6 % 3 = 0 ∧ (blk312.inp.take 6).length = 6 ∧
    demo.Wf ∧ demo.blk.OperandsLegal demo.cfg := by decide

theorem witness_EncodeInvertsDecode : KeyValid 3 [3#8, 1#8, 2#8] ∧ 6 % 3 = 0 ∧ (blk312.inp.take 6).length = 6 ∧
    KeyValid 1 [1#8] ∧
    (KeyValid 3 [2#8, 1#8, 3#8] ∧ ∀ c < 3, keyVal [2#8, 1#8, 3#8] (keyVal [2#8, 1#8, 3#8] c - 1) = c + 1) ∧
    ∀ c < 3, keyVal [1#8, 2#8, 3#8] c = c + 1 :=
  ⟨by decide, by decide, by decide, by decide, ⟨by decide, by decide⟩, by decide⟩

/-- Two states that differ in the unused key entry and input symbols. -/
theorem witness_OutputsDependOnlyOnTheOperands :
    let s := demo
    let s' := small (blkWith 3#8 [3#8, 1#8, 2#8, 9#8] 6#16 [0#5, 1#5, 2#5, 3#5, 4#5, 5#5, 31#5]) []
    s ≠ s' ∧ s.cfg = s'.cfg ∧ s.blk.keylen = s'.blk.keylen ∧ s.blk.len = s'.blk.len ∧
      (∀ c < s.blk.keylen.toNat, keyVal s.blk.key c = keyVal s'.blk.key c) ∧
      (∀ p < s.blk.len.toNat, symAt s.blk.inp p = symAt s'.blk.inp p) ∧
      (nextState (exec .encode s)).isSome = true ∧ (nextState (exec .encode s')).isSome = true := by decide

/-- Two blocks with the same inputs and different outputs. -/
theorem witness_CommandOverwritesTheOldResult :
    NextIsCmdWrite (cmdPending 1#32) 1#32 [.read (wordAt smallCfg 4)] ∧
    blk312.SameInputs (blk312.cmdError smallCfg 2#4) ∧ blk312 ≠ blk312.cmdError smallCfg 2#4 := ⟨rfl, by decide, by decide⟩

/-- Each clause: a read, the boundary writes to read-only words, a CMD write and a reset. -/
theorem witness_OnlyTheNamedEventsWriteEachRegister : smallCfg.Wf ∧
    (∃ t, step { demo with pending := [.read (wordAt smallCfg 4)] } = .next t) ∧
    ¬ IsCmdWrite smallCfg (.read (wordAt smallCfg 4)) ∧ ¬ IsReset (.read (wordAt smallCfg 4)) ∧
    ¬ IsInputWrite smallCfg (.read (wordAt smallCfg 4)) ∧
    (∃ i < smallCfg.lMax, 0x201C = 0x2000 + 4 * i) ∧
    IsCmdWrite smallCfg (.write (wordAt smallCfg 0) 1#32) ∧ IsReset .reset ∧ IsReset (.resetDuringCmd 1#32) := by
  refine ⟨by decide, ⟨_, rfl⟩, ?_, ?_, ?_, ⟨7, by decide⟩, ⟨_, rfl⟩, .inl rfl, .inr ⟨_, rfl⟩⟩
  · rintro ⟨w, h⟩; cases h
  · rintro (h | ⟨w, h⟩) <;> cases h
  · rintro ⟨off, w, -, h⟩; cases h

/-- A repeated read and a repeated CMD write, each of which steps twice. -/
theorem witness_RepeatedAccessesChangeNothing :
    (∃ t u, step { demo with pending := [.read (wordAt smallCfg 4), .read (wordAt smallCfg 4)] } = .next t ∧ step t = .next u) ∧
    ∃ t u, step { demo with pending := [.write (wordAt smallCfg 0) 1#32, .write (wordAt smallCfg 0) 1#32] } = .next t ∧
      step t = .next u := ⟨⟨_, _, rfl, rfl⟩, ⟨_, _, rfl, rfl⟩⟩

/-- A step that goes on, and one that is refused. -/
theorem witness_NoStepDependsOnLat :
    (∃ t, step (cmdPending 1#32) = .next t) ∧
    ∃ r, step { demo with blk := { blk312 with err := 5#4 }, pending := [.read (wordAt smallCfg 4)] } = .refused r :=
  ⟨⟨_, rfl⟩, ⟨_, rfl⟩⟩

/-- Each clause at its boundaries: the widths and lanes beside the legal ones, the reserved ranges' ends, the last legal
words (of which the first two groups are not reserved), and the read-only words' ends. -/
theorem witness_BusErrorsAreExactlyTheIllegalAccesses : demo.cfg.Wf ∧ 0x0000 < 0x4000 ∧ 0x3FFF < 0x4000 ∧
    (2 ≠ 4 ∧ 8 ≠ 4) ∧ (0b0111#4 ≠ 0b1111#4 ∧ 0b1110#4 ≠ 0b1111#4) ∧ (0x0001 % 4 ≠ 0 ∧ 0x3FFF % 4 ≠ 0) ∧
    (Reserved smallCfg 0x0018 ∧ Reserved smallCfg 0x00FC ∧ Reserved smallCfg 0x0110 ∧ Reserved smallCfg 0x01FC ∧
      Reserved smallCfg 0x0200 ∧ Reserved smallCfg 0x0FFC ∧ Reserved smallCfg 0x1020 ∧ Reserved smallCfg 0x1FFC ∧
      Reserved smallCfg 0x2020 ∧ Reserved smallCfg 0x2FFC ∧ Reserved smallCfg 0x3000 ∧ Reserved smallCfg 0x3FFC) ∧
    (¬ Reserved smallCfg 0x0014 ∧ ¬ Reserved smallCfg 0x0100 ∧ ¬ Reserved smallCfg 0x010C ∧
      ¬ Reserved smallCfg 0x1000 ∧ ¬ Reserved smallCfg 0x101C ∧ ¬ Reserved smallCfg 0x2000 ∧
      ¬ Reserved smallCfg 0x201C) ∧
    (ReadOnly smallCfg 0x0004 ∧ ReadOnly smallCfg 0x0014 ∧ ReadOnly smallCfg 0x2000 ∧ ReadOnly smallCfg 0x201C) := by
  refine ⟨by decide, by decide, by decide, by decide, by decide, by decide, ?_, ?_, ?_⟩
  · and_intros <;> unfold Reserved <;> decide
  · and_intros <;> unfold Reserved <;> decide
  · exact ⟨.inl rfl, .inr (.inr (.inl rfl)), .inr (.inr (.inr ⟨0, by decide⟩)), .inr (.inr (.inr ⟨7, by decide⟩))⟩

theorem witness_AccessesOutsideTheWindowFault : 0x7FFF < demo.cfg.base ∧ demo.cfg.base + 0x4000 ≤ 0xC000 := by decide

/-- The last elements of the arrays, and an offset of the last clause. -/
theorem witness_ReadsReturnTheRegisters : demo.cfg.Wf ∧ ErrLegal demo.blk.err ∧ 3 < demo.cfg.nMax ∧ 7 < demo.cfg.lMax ∧
    0x018 < 0x4000 ∧ ¬ ReadOnly smallCfg 0x018 ∧ ¬ ReadWrite smallCfg 0x018 := by
  refine ⟨by decide, by decide, by decide, by decide, by decide, ?_, ?_⟩
  · rintro (h | h | h | ⟨i, -, h⟩) <;> omega
  · rintro (h | h | ⟨i, -, h⟩ | ⟨i, -, h⟩) <;> omega

theorem witness_WritesStoreTheField : demo.cfg.Wf ∧ 3 < demo.cfg.nMax ∧ 7 < demo.cfg.lMax ∧ ReadOnly smallCfg 0x201C ∧
    ¬ ReadWrite smallCfg 0x110 := by
  refine ⟨by decide, by decide, by decide, .inr (.inr (.inr ⟨7, by decide⟩)), ?_⟩
  rintro (h | h | ⟨i, hi, h⟩ | ⟨i, -, h⟩)
  · omega
  · omega
  · have : smallCfg.nMax = 4 := rfl
    omega
  · omega

/-- One register of each kind, the arrays' last elements among them. -/
theorem witness_WrittenFieldsReadBack : demo.Wf ∧ IsInputReg smallCfg .keylen ∧ IsInputReg smallCfg .len ∧
    IsInputReg smallCfg (.key 3) ∧ IsInputReg smallCfg (.inp 7) := by
  refine ⟨by decide, ?_, ?_, ?_, ?_⟩ <;> exact ⟨rfl, rfl, by decide⟩

theorem witness_EachRegisterHasItsOwnOffset : smallCfg.Wf ∧ Reg.inRange smallCfg (.out 7) = true ∧
    accessReg smallCfg (wordAt smallCfg 0x10C) = some (.key 3) := by decide

theorem witness_ParamsIsAConstant : demo.cfg.Wf ∧ ∃ t, step { demo with pending := [.reset] } = .next t :=
  ⟨by decide, ⟨_, rfl⟩⟩

theorem witness_ReservedErrorCodeReadIsRefused :
    let s : State := { demo with blk := { blk312 with err := 5#4 }, pending := [.read (wordAt smallCfg 4)] }
    5 ≤ s.blk.err.toNat ∧ s.pending = [.read (wordAt s.cfg 4)] ∧ s.cfg.Wf := by decide

/-- Each clause: the reads of STATUS, of OUTLEN and of the last OUT element, after a success and after a failure. -/
theorem witness_NextReadSeesTheCommandsResult :
    smallCfg.Wf ∧ NextIsCmdWrite (cmdPending 1#32) 1#32 [.read (wordAt smallCfg 0x004)] ∧
    NextIsCmdWrite { demo with pending := [.write (wordAt smallCfg 0) 2#32, .read (wordAt smallCfg 0x010)] } 2#32
      [.read (wordAt smallCfg 0x010)] ∧
    NextIsCmdWrite { demo with pending := [.write (wordAt smallCfg 0) 3#32, .read (wordAt smallCfg 0x201C)] } 3#32
      [.read (wordAt smallCfg 0x201C)] ∧
    7 < smallCfg.lMax ∧ 0x201C = 0x2000 + 4 * 7 ∧
    resultCode smallCfg blk312 1#32 = 0#4 ∧ resultCode smallCfg blk312 3#32 ≠ 0#4 :=
  ⟨by decide, rfl, rfl, rfl, by decide, rfl, by decide, by decide⟩

theorem witness_InputWritesCommute : demo.cfg.Wf ∧ IsInputReg smallCfg (.key 0) ∧ IsInputReg smallCfg (.key 3) ∧
    Reg.key 0 ≠ Reg.key 3 := ⟨by decide, ⟨rfl, rfl, by decide⟩, ⟨rfl, rfl, by decide⟩, by decide⟩

theorem witness_LoadPseudoOperationsLoadTheOperands : demo.Wf ∧ [3#32, 1#32, 2#32, 4#32].length ≤ demo.cfg.nMax ∧
    (List.replicate 8 9#32).length ≤ demo.cfg.lMax := by decide

/-- The empty and the longest readout, and the last element's accesses. -/
theorem witness_ReadoutAndCopybackMoveTheOutput : demo.Wf ∧ 0 ≤ demo.cfg.lMax ∧ 8 ≤ demo.cfg.lMax ∧ 7 < 8 := by decide

theorem witness_IdleBlockHoldsItsState : demo.pending = [] := by decide

theorem witness_ResetClearsEveryElement : ({ demo with pending := [.reset] } : State).pending = [.reset] := by decide

theorem witness_ResetAbandonsTheOutstandingCommand :
    ({ demo with pending := [.resetDuringCmd 1#32] } : State).pending = [.resetDuringCmd 1#32] := by decide

theorem witness_StepKeepsTheInvariant : (cmdPending 1#32).Inv ∧ ∃ t, step (cmdPending 1#32) = .next t :=
  ⟨by decide, ⟨_, rfl⟩⟩

theorem witness_ResetMeetsTheInvariant : smallCfg.Wf := by decide

theorem witness_EveryHostEventIsTaken : (cmdPending 2#32).Inv := by decide

theorem witness_EveryAccessResponds : (cmdPending 3#32).Inv ∧ (cmdPending 3#32).pending.length = 2 := by decide

end Sys2Proof.Tests
end

