-- ==== Sys2Proof/Proofs/Scope.lean ====
section
/-! PROOF. O16, R8 (00_scope.md): commands are blind to the symbols' values. A transform only copies symbols, and it
fills every output position, so renaming the symbols of IN renames those of OUT; the checks of R59 do not read IN. -/

namespace Sys2Proof

/-- The transform of a command: Enc for ENCODE, Dec for DECODE (R60, R61, 40_permute.md). -/
def Instr.transform : Instr → Nat → Nat → List KeyWord → List Sym → List Sym
  | .encode => Machine.enc
  | .decode => Machine.dec

end Sys2Proof

namespace Sys2Proof.Machine

/-! ### Commands through their transform -/

theorem exec_eq_runTransform (i : Instr) (s : State) :
    exec i s = .next (s.withBlk (s.blk.runTransform s.cfg i.transform)) := by
  cases i with
  | encode => rfl
  | decode => rfl

@[simp] theorem length_transform (i : Instr) (n l : Nat) (key : List KeyWord) (inp : List Sym) :
    (i.transform n l key inp).length = l := by
  cases i with
  | encode => exact length_enc n l key inp
  | decode => exact length_dec n l key inp

theorem runTransform_of_operandsLegal {c : Config} {b : Block} (h : b.OperandsLegal c)
    (f : Nat → Nat → List KeyWord → List Sym → List Sym) :
    b.runTransform c f = b.cmdSuccess c (f b.n b.textLen b.key b.inp) :=
  if_pos ((operandError_eq_none_iff c b).2 h)

theorem runTransform_of_not_operandsLegal {c : Config} {b : Block} (h : ¬ b.OperandsLegal c)
    (f : Nat → Nat → List KeyWord → List Sym → List Sym) :
    b.runTransform c f = b.cmdError c (operandError c b) :=
  if_neg fun e => h ((operandError_eq_none_iff c b).1 e)

/-! ### The index maps reach every position (R55, 40_permute.md) -/

/-- There are n·R cells, so a one-to-one index map into [0, n·R) leaves no position out. -/
theorem exists_cell_of_injOn {n rows : Nat} {ix : Nat × Nat → Nat}
    (hlt : ∀ x ∈ cells n rows, ix x < n * rows)
    (hinj : ∀ x ∈ cells n rows, ∀ y ∈ cells n rows, ix x = ix y → x = y) {p : Nat} (hp : p < n * rows) :
    ∃ cell : Nat × Nat, (cell.1 < n ∧ cell.2 < rows) ∧ ix cell = p := by
  have hmem {x : Nat × Nat} (hx : x ∈ Finset.range n ×ˢ Finset.range rows) : x ∈ cells n rows := by
    simpa [mem_cells] using hx
  obtain ⟨cell, hcell, h⟩ := Finset.surj_on_of_inj_on_of_card_le (t := Finset.range (n * rows)) (fun x _ => ix x)
    (fun x hx => Finset.mem_range.2 (hlt x (hmem hx)))
    (fun x y hx hy => hinj x (hmem hx) y (hmem hy)) (by simp) p (Finset.mem_range.2 hp)
  exact ⟨cell, mem_cells.1 (hmem hcell), h.symm⟩

theorem exists_cell_rowMajor {n rows p : Nat} (hp : p < n * rows) :
    ∃ cell : Nat × Nat, (cell.1 < n ∧ cell.2 < rows) ∧ rowMajor n cell = p :=
  exists_cell_of_injOn (fun _ hx => rowMajor_lt (mem_cells.1 hx).1 (mem_cells.1 hx).2)
    (fun _ hx _ hy => rowMajor_inj (mem_cells.1 hx).1 (mem_cells.1 hy).1) hp

theorem exists_cell_colMajor {n rows p : Nat} {key : List KeyWord} (hk : KeyValid n key) (hp : p < n * rows) :
    ∃ cell : Nat × Nat, (cell.1 < n ∧ cell.2 < rows) ∧ colMajor key rows cell = p :=
  exists_cell_of_injOn (fun _ hx => colMajor_lt hk (mem_cells.1 hx).1 (mem_cells.1 hx).2)
    (fun _ hx _ hy => colMajor_inj hk (mem_cells.1 hx) (mem_cells.1 hy)) hp

/-! ### Renaming the symbols -/

theorem symAt_map {xs : List Sym} {p : Nat} (f : Sym → Sym) (hp : p < xs.length) :
    symAt (xs.map f) p = f (symAt xs p) := by
  simp [symAt, List.getD_eq_getElem?_getD, hp]

theorem symAt_enc_map {n rows p : Nat} {key : List KeyWord} {inp : List Sym} (f : Sym → Sym)
    (hk : KeyValid n key) (hl : n * rows ≤ inp.length) (hp : p < n * rows) :
    symAt (enc n (n * rows) key (inp.map f)) p = f (symAt (enc n (n * rows) key inp) p) := by
  obtain ⟨cell, ⟨hc, hr⟩, rfl⟩ := exists_cell_colMajor hk hp
  rw [symAt_enc _ hk hc hr, symAt_enc _ hk hc hr, symAt_map f ((rowMajor_lt hc hr).trans_le hl)]

theorem symAt_dec_map {n rows p : Nat} {key : List KeyWord} {inp : List Sym} (f : Sym → Sym)
    (hk : KeyValid n key) (hl : n * rows ≤ inp.length) (hp : p < n * rows) :
    symAt (dec n (n * rows) key (inp.map f)) p = f (symAt (dec n (n * rows) key inp) p) := by
  obtain ⟨cell, ⟨hc, hr⟩, rfl⟩ := exists_cell_rowMajor hp
  rw [symAt_dec _ hk hc hr, symAt_dec _ hk hc hr, symAt_map f ((colMajor_lt hk hc hr).trans_le hl)]

theorem symAt_transform_map (i : Instr) {n l p : Nat} {key : List KeyWord} {inp : List Sym} (f : Sym → Sym)
    (hk : KeyValid n key) (hn : l % n = 0) (hl : l ≤ inp.length) (hp : p < l) :
    symAt (i.transform n l key (inp.map f)) p = f (symAt (i.transform n l key inp) p) := by
  obtain ⟨rows, rfl⟩ := Nat.dvd_of_mod_eq_zero hn
  cases i with
  | encode => exact symAt_enc_map f hk hl hp
  | decode => exact symAt_dec_map f hk hl hp

/-- The block with every symbol of IN renamed by `f`. -/
def Block.mapInp (f : Sym → Sym) (b : Block) : Block := { b with inp := b.inp.map f }

/-- The checks of R59 do not read IN. -/
theorem operandError_mapInp (c : Config) (f : Sym → Sym) (b : Block) :
    operandError c (b.mapInp f) = operandError c b := rfl

theorem runTransform_mapInp_err (c : Config) (f : Sym → Sym) (b : Block) (i : Instr) :
    ((b.mapInp f).runTransform c i.transform).err = (b.runTransform c i.transform).err := by
  rw [runTransform_err, runTransform_err, operandError_mapInp]

/-- On a failure there is no output to compare; on a success OUT is the transform's result. -/
theorem runTransform_mapInp_output {c : Config} (f : Sym → Sym) {b : Block} (i : Instr) (hb : b.Sized c) :
    ((b.mapInp f).runTransform c i.transform).outlen = (b.runTransform c i.transform).outlen ∧
      ∀ p < (b.runTransform c i.transform).outlen.toNat,
        symAt ((b.mapInp f).runTransform c i.transform).out p = f (symAt (b.runTransform c i.transform).out p) := by
  by_cases h : b.OperandsLegal c
  · have h' : (b.mapInp f).OperandsLegal c := h
    rw [runTransform_of_operandsLegal h, runTransform_of_operandsLegal h']
    obtain ⟨-, hL, hk, hn⟩ := h
    obtain ⟨-, hinp, -⟩ := hb
    refine ⟨rfl, fun p hp => ?_⟩
    replace hp : p < b.textLen := hp
    have hp' : p < (b.mapInp f).textLen := hp
    simp only [Block.cmdSuccess_out, symAt_writePrefix, length_transform, if_pos hp, if_pos hp']
    exact symAt_transform_map i f hk hn (hL.trans_eq hinp.symm) hp
  · have h' : ¬ (b.mapInp f).OperandsLegal c := h
    rw [runTransform_of_not_operandsLegal h, runTransform_of_not_operandsLegal h']
    refine ⟨rfl, fun p hp => ?_⟩
    simp at hp

end Sys2Proof.Machine

namespace Sys2Proof.Proofs

open Sys2Proof.Machine

/-- Settles O16: a command is its operand checks, which do not read IN, and its transform, which commutes with
every renaming of the symbols. -/
theorem commandsAreBlindToSymbolValues : Obligations.CommandsAreBlindToSymbolValues := by
  intro f s t i ⟨_, hsized⟩ hexec
  rw [exec_eq_runTransform] at hexec
  cases hexec
  obtain ⟨houtlen, hout⟩ := runTransform_mapInp_output f i hsized
  exact ⟨_, exec_eq_runTransform i _, runTransform_mapInp_err s.cfg f s.blk i, houtlen, hout⟩

end Sys2Proof.Proofs
end

