-- ==== Sys2Proof/Proofs/State.lean ====
section
/-! PROOF. O41, O21, O28, O30, O31, O40 and O42, the rules of 10_state.md: who writes the block's elements, what their
words hold, their reset values, and the invariant. Everything about all steps comes from `step_blk_cases`, which says
what a step can do to the block. -/

namespace Sys2Proof.Machine

open Sys2Proof.Claims (IsCmdWrite IsReset IsInputWrite StepsTo wordAt)

/-! ### The legal accesses -/

/-- An access that reaches a register is the one legal access to it (R34, R35, 20_memory.md). -/
theorem eq_access_of_accessReg {c : Config} {a : Access} {r : Reg} (h : accessReg c a = some r) :
    a = r.access c := by
  obtain ⟨⟨hwidth, hlanes, -⟩, -, haddr⟩ := accessReg_eq_some h
  rcases a with ⟨addr, width, lanes⟩
  simp only [Reg.access, Access.mk.injEq]
  exact ⟨haddr, hwidth, hlanes⟩

/-- A write that stores into a register other than CMD is a legal write to an input register. -/
theorem isInputWrite_of_writtenBlk {c : Config} {b b' : Block} {w : Word32} {r : Reg} (hr : r.inRange c = true)
    (hcmd : r ≠ .cmd) (h : writtenBlk c b w r = some b') : IsInputWrite c (.write (r.access c) w) := by
  refine ⟨r.offset, w, ?_, rfl⟩
  cases r with
  | cmd => exact absurd rfl hcmd
  | keylen => exact .inl rfl
  | len => exact .inr (.inl rfl)
  | key i => exact .inr (.inr (.inl ⟨i, of_decide_eq_true hr, rfl⟩))
  | inp i => exact .inr (.inr (.inr ⟨i, of_decide_eq_true hr, rfl⟩))
  | status => cases h
  | outlen => cases h
  | params => cases h
  | out i => cases h

/-- A write to a read-only register is a bus error, as a step (R33 (d), 20_memory.md). -/
theorem step_write_readOnly {s : State} {r : Reg} {w : Word32} {rest : List HostEvent} (hc : s.cfg.Wf)
    (hr : r.inRange s.cfg = true) (hb : writtenBlk s.cfg s.blk w r = none)
    (hp : s.pending = .write (r.access s.cfg) w :: rest) :
    StepsTo s rest s.blk (.fault (.busError (s.cfg.base + r.offset))) := by
  rw [StepsTo, step_cons hp, perform_write]
  simp only [State.withPending_cfg, State.withPending_blk, accessReg_access hc hr, Option.bind_some, hb]
  rfl

/-- A write of a command's word to CMD, as a step: it runs the command's transform (R38, R40, 20_memory.md). -/
theorem step_cmdWrite {s : State} {w : Word32} {i : Instr} {rest : List HostEvent} (hw : decodeWord w = .ok i)
    (hp : s.pending = cmdWrite s.cfg w :: rest) :
    step s = .next { s with
      blk := s.blk.runTransform s.cfg i.transform
      pending := rest
      responses := s.responses ++ [.written] } := by
  rw [step_cons hp, cmdWrite, perform_write]
  simp only [State.withPending_cfg, State.withPending_blk, accessReg_cmd, Option.bind_some, writtenBlk, hw]
  cases i with
  | encode => rfl
  | decode => rfl

/-! ### What a write does to the block -/

/-- A CMD write runs a command's transform, or fails with ILLEGAL_CMD (R59, 40_permute.md). -/
theorem writtenBlk_cmd_cases {c : Config} {b b' : Block} {w : Word32} (h : writtenBlk c b w .cmd = some b') :
    (∃ i : Instr, b' = b.runTransform c i.transform) ∨ b' = b.cmdError c errIllegalCmd := by
  rw [writtenBlk, Option.some.injEq] at h
  subst h
  rcases decodeWord w with _ | (_ | _)
  · exact .inr rfl
  · exact .inl ⟨.encode, rfl⟩
  · exact .inl ⟨.decode, rfl⟩

theorem writtenBlk_cmd_sameInputs {c : Config} {b b' : Block} {w : Word32} (h : writtenBlk c b w .cmd = some b') :
    b.SameInputs b' := by
  rcases writtenBlk_cmd_cases h with ⟨i, rfl⟩ | rfl
  · exact runTransform_sameInputs c i.transform b
  · exact ⟨rfl, rfl, rfl, rfl⟩

theorem writtenBlk_cmd_done {c : Config} {b b' : Block} {w : Word32} (h : writtenBlk c b w .cmd = some b') :
    b'.done = true := by
  rcases writtenBlk_cmd_cases h with ⟨i, rfl⟩ | rfl
  · exact runTransform_done c i.transform b
  · rfl

/-- A write to a register other than CMD writes no output (R28, 10_state.md). -/
theorem writtenBlk_sameOutputs {c : Config} {b b' : Block} {w : Word32} {r : Reg} (hcmd : r ≠ .cmd)
    (h : writtenBlk c b w r = some b') : b.SameOutputs b' := by
  cases r with
  | cmd => exact absurd rfl hcmd
  | keylen => cases h; exact ⟨rfl, rfl, rfl, rfl⟩
  | len => cases h; exact ⟨rfl, rfl, rfl, rfl⟩
  | key i => cases h; exact ⟨rfl, rfl, rfl, rfl⟩
  | inp i => cases h; exact ⟨rfl, rfl, rfl, rfl⟩
  | status => cases h
  | outlen => cases h
  | params => cases h
  | out i => cases h

/-! ### What a step does to the block -/

/-- A step keeps the parameters; and it keeps the block, or is a legal write to a register, or is a reset. -/
theorem step_blk_cases {s t : State} (h : step s = .next t) :
    t.cfg = s.cfg ∧
    (t.blk = s.blk ∨
      (∃ r w rest, s.pending = .write (r.access s.cfg) w :: rest ∧ r.inRange s.cfg = true ∧
        writtenBlk s.cfg s.blk w r = some t.blk) ∨
      (∃ e rest, s.pending = e :: rest ∧ IsReset e ∧ t.blk = Block.atReset s.cfg)) := by
  rcases hp : s.pending with _ | ⟨e, rest⟩
  · rw [step_nil s hp] at h
    cases h
    exact ⟨rfl, .inl rfl⟩
  · rw [step_cons hp] at h
    rcases perform_cases h with ⟨a, r, -, rfl⟩ | ⟨a, w, rfl, ⟨r, b, ha, hb, rfl⟩ | ⟨-, rfl⟩⟩ | ⟨rfl, rfl⟩ | ⟨w, rfl, rfl⟩
    · exact ⟨rfl, .inl rfl⟩
    · obtain ⟨-, hr, -⟩ := accessReg_eq_some ha
      cases eq_access_of_accessReg ha
      exact ⟨rfl, .inr (.inl ⟨r, w, rest, rfl, hr, hb⟩)⟩
    · exact ⟨rfl, .inl rfl⟩
    · exact ⟨rfl, .inr (.inr ⟨_, rest, rfl, .inl rfl, rfl⟩)⟩
    · exact ⟨rfl, .inr (.inr ⟨_, rest, rfl, .inr ⟨w, rfl⟩, rfl⟩)⟩

/-! ### Consistent output -/

theorem outputConsistent_of_sameOutputs {c : Config} {b b' : Block} (h : b.OutputConsistent c)
    (hs : b.SameOutputs b') : b'.OutputConsistent c := by
  obtain ⟨hdone, herr, houtlen, hout⟩ := hs
  simpa only [Block.OutputConsistent, hdone, herr, houtlen, hout] using h

/-- A failed command leaves no output (R69, 60_exceptions.md). -/
theorem cmdError_outputConsistent {c : Config} {e : ErrCode} (b : Block) (he : ErrLegal e) :
    (b.cmdError c e).OutputConsistent c :=
  ⟨he, Nat.zero_le _, fun _ _ _ => symAt_replicate_zero _ _, fun _ => rfl, nofun⟩

/-- A success leaves L ≤ L_MAX symbols, zeros beyond them, and no error (R59, 40_permute.md). -/
theorem cmdSuccess_outputConsistent {c : Config} {b : Block} {xs : List Sym} (hxs : xs.length = b.textLen)
    (hL : b.textLen ≤ c.lMax) : (b.cmdSuccess c xs).OutputConsistent c := by
  refine ⟨Nat.zero_le _, hL, fun i _ hi => ?_, fun h => absurd rfl h, nofun⟩
  have hi : ¬ i < xs.length := by rw [hxs]; exact not_lt.2 hi
  rw [Block.cmdSuccess_out, symAt_writePrefix, if_neg hi, symAt_replicate_zero]

theorem runTransform_outputConsistent (c : Config) (b : Block) (i : Instr) :
    (b.runTransform c i.transform).OutputConsistent c := by
  rcases runTransform_cases c i.transform b with ⟨⟨-, hL, -⟩, e⟩ | ⟨-, e⟩ <;> rw [e]
  · exact cmdSuccess_outputConsistent (length_transform ..) hL
  · exact cmdError_outputConsistent b (operandError_legal c b)

theorem writtenBlk_outputConsistent {c : Config} {b b' : Block} {w : Word32} {r : Reg} (h : b.OutputConsistent c)
    (hw : writtenBlk c b w r = some b') : b'.OutputConsistent c := by
  by_cases hcmd : r = .cmd
  · subst hcmd
    rcases writtenBlk_cmd_cases hw with ⟨i, rfl⟩ | rfl
    · exact runTransform_outputConsistent c b i
    · exact cmdError_outputConsistent b (by decide)
  · exact outputConsistent_of_sameOutputs h (writtenBlk_sameOutputs hcmd hw)

theorem atReset_outputConsistent (c : Config) : (Block.atReset c).OutputConsistent c :=
  ⟨Nat.zero_le _, Nat.zero_le _, fun _ _ _ => symAt_replicate_zero _ _, fun _ => rfl, fun _ => ⟨rfl, rfl⟩⟩

theorem atReset_inv {c : Config} (hc : c.Wf) : (State.atReset c).Inv :=
  ⟨⟨hc, atReset_sized c⟩, atReset_outputConsistent c⟩

theorem step_inv {s t : State} (hs : s.Inv) (h : step s = .next t) : t.Inv := by
  obtain ⟨⟨hc, hsized⟩, hout⟩ := hs
  obtain ⟨hcfg, hblk⟩ := step_blk_cases h
  rw [State.Inv, State.Wf, hcfg]
  rcases hblk with hb | ⟨r, w, _, -, -, hw⟩ | ⟨_, _, -, -, hb⟩
  · rw [hb]
    exact ⟨⟨hc, hsized⟩, hout⟩
  · exact ⟨⟨hc, writtenBlk_sized hsized hw⟩, writtenBlk_outputConsistent hout hw⟩
  · rw [hb]
    exact atReset_inv hc

/-! ### Who writes what (R28, 10_state.md) -/

theorem step_sameOutputs {s t : State} {e : HostEvent} {rest : List HostEvent} (hp : s.pending = e :: rest)
    (h : step s = .next t) (hcmd : ¬ IsCmdWrite s.cfg e) (hreset : ¬ IsReset e) : s.blk.SameOutputs t.blk := by
  obtain ⟨-, hb | ⟨r, w, _, hp', -, hw⟩ | ⟨_, _, hp', he, -⟩⟩ := step_blk_cases h
  · rw [hb]
    exact ⟨rfl, rfl, rfl, rfl⟩
  · cases hp.symm.trans hp'
    exact writtenBlk_sameOutputs (fun hr => hcmd ⟨w, by rw [hr]; rfl⟩) hw
  · cases hp.symm.trans hp'
    exact absurd he hreset

theorem step_sameInputs {s t : State} {e : HostEvent} {rest : List HostEvent} (hp : s.pending = e :: rest)
    (h : step s = .next t) (hinput : ¬ IsInputWrite s.cfg e) (hreset : ¬ IsReset e) : s.blk.SameInputs t.blk := by
  obtain ⟨-, hb | ⟨r, w, _, hp', hr, hw⟩ | ⟨_, _, hp', he, -⟩⟩ := step_blk_cases h
  · rw [hb]
    exact ⟨rfl, rfl, rfl, rfl⟩
  · cases hp.symm.trans hp'
    by_cases hcmd : r = .cmd
    · subst hcmd
      exact writtenBlk_cmd_sameInputs hw
    · exact absurd (isInputWrite_of_writtenBlk hr hcmd hw) hinput
  · cases hp.symm.trans hp'
    exact absurd he hreset

/-- A write to STATUS, OUTLEN or OUT[i] is a bus error with no effect. -/
theorem step_write_output {s : State} {off : Nat} {w : Word32} {rest : List HostEvent} (hc : s.cfg.Wf)
    (hoff : off = 0x004 ∨ off = 0x010 ∨ ∃ i < s.cfg.lMax, off = 0x2000 + 4 * i)
    (hp : s.pending = .write (wordAt s.cfg off) w :: rest) :
    StepsTo s rest s.blk (.fault (.busError (s.cfg.base + off))) := by
  rcases hoff with rfl | rfl | ⟨i, hi, rfl⟩
  · exact step_write_readOnly (r := .status) hc rfl rfl hp
  · exact step_write_readOnly (r := .outlen) hc rfl rfl hp
  · exact step_write_readOnly (r := .out i) hc (decide_eq_true hi) rfl hp

theorem step_cmdWrite_done {s : State} {e : HostEvent} {rest : List HostEvent} (hc : s.cfg.Wf)
    (hp : s.pending = e :: rest) (he : IsCmdWrite s.cfg e) : ∃ t, step s = .next t ∧ t.blk.done = true := by
  obtain ⟨w, rfl⟩ := he
  have hb : writtenBlk s.cfg s.blk w .cmd = some _ := rfl
  exact ⟨_, step_write (r := .cmd) hc rfl hb hp, writtenBlk_cmd_done hb⟩

theorem step_reset_blk {s : State} {e : HostEvent} {rest : List HostEvent} (hp : s.pending = e :: rest)
    (he : IsReset e) : ∃ t, step s = .next t ∧ t.blk = Block.atReset s.cfg := by
  rcases he with rfl | ⟨w, rfl⟩
  · exact ⟨_, step_cons hp, rfl⟩
  · exact ⟨_, step_cons hp, rfl⟩

/-! ### Written fields -/

/-- A field read back is the written word with the reserved bits 0 (R25, 10_state.md). -/
theorem zext32_lowBits (n : Nat) (w : Word32) : zext32 (lowBits n w) = w &&& zext32 (BitVec.allOnes n) := by
  ext i hi
  simp [zext32, lowBits, hi, BitVec.getLsbD_eq_getElem, Bool.and_comm]

theorem regValue_writeKeylen (c : Config) (b : Block) (w : Word32) :
    regValue c (b.writeKeylen w) .keylen = w &&& 0x000000FF#32 := zext32_lowBits 8 w

theorem regValue_writeLen (c : Config) (b : Block) (w : Word32) :
    regValue c (b.writeLen w) .len = w &&& 0x0000FFFF#32 := zext32_lowBits 16 w

theorem regValue_writeKey (c : Config) {b : Block} {i : Nat} (w : Word32) (hi : i < b.key.length) :
    regValue c (b.writeKey i w) (.key i) = w &&& 0x000000FF#32 := by
  have hget : (b.key.set i (lowBits 8 w)).getD i 0#8 = lowBits 8 w := by
    simp [List.getD_eq_getElem?_getD, hi]
  rw [regValue, Block.writeKey_key, hget]
  exact zext32_lowBits 8 w

theorem regValue_writeInp (c : Config) {b : Block} {i : Nat} (w : Word32) (hi : i < b.inp.length) :
    regValue c (b.writeInp i w) (.inp i) = w &&& 0x0000001F#32 := by
  rw [regValue, Block.writeInp_inp, symAt_set _ _ _ _ hi, if_pos rfl]
  exact zext32_lowBits 5 w

/-- A write to a register and then a read of it: the read sees the block that the write left. -/
theorem step_write_read {s : State} {r : Reg} {w : Word32} {b : Block} {rest : List HostEvent} (hc : s.cfg.Wf)
    (hr : r.inRange s.cfg = true) (hb : writtenBlk s.cfg s.blk w r = some b)
    (hp : s.pending = .write (r.access s.cfg) w :: .read (r.access s.cfg) :: rest) :
    ∃ t u, step s = .next t ∧ step t = .next u ∧
      u.responses = s.responses ++ [.written, .data (regValue s.cfg b r)] := by
  have hstatus : r ≠ .status := by rintro rfl; cases hb
  refine ⟨_, _, step_write hc hr hb hp, step_read hc hr (.inl hstatus) rfl, ?_⟩
  exact List.append_assoc ..

/-! ### The words of PARAMS and STATUS -/

/-- PARAMS as a number: its three fields, which the legal parameters fit (R20, 10_state.md). -/
theorem toNat_paramsWord {c : Config} (hc : c.Wf) :
    (paramsWord c).toNat = 5 * 2 ^ 24 + c.lMax * 2 ^ 8 + c.nMax := by
  obtain ⟨-, hn, -, hl, -⟩ := hc
  have hn : c.nMax < 2 ^ 8 := by omega
  have hl : c.lMax < 2 ^ 16 := by omega
  rw [paramsWord, zext32, Config.symW, BitVec.toNat_setWidth, BitVec.toNat_append, BitVec.toNat_append,
    BitVec.toNat_ofNat, BitVec.toNat_ofNat, BitVec.toNat_ofNat, Nat.mod_eq_of_lt hn, Nat.mod_eq_of_lt hl,
    ← Nat.shiftLeft_add_eq_or_of_lt hl, ← Nat.shiftLeft_add_eq_or_of_lt hn]
  omega

theorem paramsWord_fields {c : Config} (hc : c.Wf) :
    ((paramsWord c).extractLsb' 0 8).toNat = c.nMax ∧ ((paramsWord c).extractLsb' 8 16).toNat = c.lMax ∧
      (paramsWord c).extractLsb' 24 4 = 5#4 ∧ (paramsWord c).extractLsb' 28 4 = 0#4 := by
  have hword := toNat_paramsWord hc
  obtain ⟨-, hn, -, hl, -⟩ := hc
  simp only [← BitVec.toNat_inj, BitVec.extractLsb'_toNat, hword, Nat.shiftRight_eq_div_pow, BitVec.toNat_ofNat]
  omega

/-- STATUS as a number: ERR from bit 4 on, DONE in bit 0 (R17, 10_state.md). -/
theorem toNat_statusWord (b : Block) : (statusWord b).toNat = 16 * b.err.toNat + b.done.toNat := by
  have hdone : b.done.toNat < 2 ^ 1 := Bool.toNat_lt b.done
  rw [statusWord, zext32, BitVec.toNat_setWidth, BitVec.toNat_append, BitVec.toNat_append, BitVec.toNat_ofBool,
    BitVec.toNat_ofNat, Nat.zero_mod, Nat.or_zero, ← Nat.shiftLeft_add_eq_or_of_lt hdone]
  omega

theorem statusWord_fields (b : Block) :
    (statusWord b).getLsbD 0 = b.done ∧ (statusWord b).extractLsb' 1 3 = 0#3 ∧
      (statusWord b).extractLsb' 4 4 = b.err ∧ (statusWord b).extractLsb' 8 24 = 0#24 := by
  have hword := toNat_statusWord b
  have hdone := Bool.toNat_lt b.done
  constructor
  · rw [BitVec.getLsbD, hword, Nat.testBit_zero]
    cases b.done with
    | false => simp; omega
    | true => simp; omega
  · simp only [← BitVec.toNat_inj, BitVec.extractLsb'_toNat, hword, Nat.shiftRight_eq_div_pow, BitVec.toNat_ofNat]
    omega

/-! ### Straight after reset (R29, 10_state.md) -/

/-- KEYLEN = 0 is no key length, so the key is malformed whatever the parameters. -/
theorem operandError_atReset (c : Config) : operandError c (Block.atReset c) = errMalformedKey := by
  have hrange : ¬ (c.nMax < (Block.atReset c).n ∨ c.lMax < (Block.atReset c).textLen) := by
    rintro (h | h)
    · exact Nat.not_lt_zero _ h
    · exact Nat.not_lt_zero _ h
  have hkey : ¬ KeyValid (Block.atReset c).n (Block.atReset c).key := fun h => Nat.not_lt_zero _ h.1
  rw [operandError, if_neg hrange, if_pos hkey]

/-- The opcode table's number of a command's word is that word, and it decodes to the command (R46, 30_encoding.md). -/
theorem decodeWord_tableWord_encodeWord (i : Instr) :
    decodeWord (tableWord 32 (encodeWord i).toNat) = .ok i := by
  cases i with
  | encode => rfl
  | decode => rfl

theorem step_command_atReset (c : Config) (i : Instr) :
    ∃ t, step ((State.atReset c).withFetchWord 32 (encodeWord i).toNat) = .next t ∧ t.blk.err = errMalformedKey := by
  refine ⟨_, step_cmdWrite (decodeWord_tableWord_encodeWord i) rfl, ?_⟩
  exact (runTransform_err c i.transform _).trans (operandError_atReset c)

end Sys2Proof.Machine

namespace Sys2Proof.Proofs

open Sys2Proof.Machine Sys2Proof.Claims

/-- Settles O41, by the cases of what a step does to the block: it keeps it, it writes a register, or it resets it. -/
theorem stepKeepsTheInvariant : Obligations.StepKeepsTheInvariant :=
  fun _ _ hs h => step_inv hs h

/-- Settles O21: the frames come from what a step does to the block, the effects from the steps of the named events. -/
theorem onlyTheNamedEventsWriteEachRegister : Obligations.OnlyTheNamedEventsWriteEachRegister := by
  intro s e rest hc hp
  refine ⟨fun t h => ?_, fun off w hoff he => ?_, step_cmdWrite_done hc hp, step_reset_blk hp⟩
  · exact ⟨(step_blk_cases h).1, step_sameOutputs hp h, step_sameInputs hp h⟩
  · subst he
    exact step_write_output hc hoff hp

/-- Settles O28: the read sees the block that the write left, whose register holds the masked word. -/
theorem writtenFieldsReadBack : Obligations.WrittenFieldsReadBack := by
  rintro s w rest r ⟨hc, hkey, hinp, -⟩ ⟨hr, hwritable, hcmd⟩ hp
  cases r with
  | keylen =>
    rw [← regValue_writeKeylen s.cfg s.blk w]
    exact step_write_read hc hr rfl hp
  | len =>
    rw [← regValue_writeLen s.cfg s.blk w]
    exact step_write_read hc hr rfl hp
  | key i =>
    have hi : i < s.blk.key.length := hkey ▸ of_decide_eq_true hr
    rw [← regValue_writeKey s.cfg w hi]
    exact step_write_read hc hr rfl hp
  | inp i =>
    have hi : i < s.blk.inp.length := hinp ▸ of_decide_eq_true hr
    rw [← regValue_writeInp s.cfg w hi]
    exact step_write_read hc hr rfl hp
  | cmd => exact absurd rfl hcmd
  | status => cases hwritable
  | outlen => cases hwritable
  | params => cases hwritable
  | out i => cases hwritable

/-- Settles O30: PARAMS is a function of the parameters, which no step changes. -/
theorem paramsIsAConstant : Obligations.ParamsIsAConstant := by
  intro s hc
  refine ⟨paramsWord_fields hc, fun rest => ?_, fun t h => ?_, fun w rest => ?_⟩
  · exact step_read (r := .params) hc rfl (.inl (by decide)) rfl
  · rw [(step_blk_cases h).1]
  · exact step_write_readOnly (r := .params) hc rfl rfl rfl

/-- Settles O31: the STATUS word is the number 16 · ERR + DONE, which fixes each field. -/
theorem statusWordFields : Obligations.StatusWordFields := statusWord_fields

/-- Settles O40: the reset values are the definition's; a command then fails with MALFORMED_KEY, as KEYLEN is 0. -/
theorem resetValues : Obligations.ResetValues :=
  fun c => ⟨rfl, rfl, step_command_atReset c⟩

/-- Settles O42: every element is 0, so there is no error and no output. -/
theorem resetMeetsTheInvariant : Obligations.ResetMeetsTheInvariant :=
  ⟨fun _ hc => atReset_inv hc, rfl, atReset_inv (by decide)⟩

end Sys2Proof.Proofs
end

