-- ==== Sys2Proof/Proofs/Memory.lean ====
section
/-! PROOF. O5, O22, O24, O25, O26, O27, O29, O33 and O43, the rules of 20_memory.md: which register an access reaches,
what a read and a write of it do, and what the access after a command sees. An access is a step with a response
(`stepsTo_read`, `stepsTo_write`), and it reaches a register exactly where it is the legal access to it
(`accessReg_eq_some_iff`). -/

namespace Sys2Proof.Machine

open Sys2Proof.Claims (IsAccess IsInputReg StepsTo ReadsAs WriteLeaves BusErrors Reserved ReadOnly ReadWrite wordAt
  NextIsCmdWrite operandCode resultCode resultSym)

/-! ### Registers and offsets (R32, 20_memory.md) -/

theorem accessReg_eq_some_iff {c : Config} (hc : c.Wf) {a : Access} {r : Reg} :
    accessReg c a = some r ↔ r.inRange c = true ∧ a = r.access c := by
  constructor
  · intro h
    obtain ⟨-, hr, -⟩ := accessReg_eq_some h
    exact ⟨hr, eq_access_of_accessReg h⟩
  · rintro ⟨hr, rfl⟩
    exact accessReg_access hc hr

theorem accessReg_at_eq_some_iff {c : Config} (hc : c.Wf) {off width : Nat} {lanes : BitVec 4} {r : Reg} :
    accessReg c ⟨c.base + off, width, lanes⟩ = some r ↔
      r.inRange c = true ∧ off = r.offset ∧ width = 4 ∧ lanes = 0b1111#4 := by
  simp [accessReg_eq_some_iff hc, Reg.access]

theorem offset_aligned_in_window {c : Config} (hc : c.Wf) {r : Reg} (hr : r.inRange c = true) :
    r.offset < 0x4000 ∧ r.offset % 4 = 0 := by
  obtain ⟨⟨-, -, -, hlt, halign⟩, -, haddr⟩ := accessReg_eq_some (accessReg_access hc hr)
  rw [haddr, Nat.add_sub_cancel_left] at halign
  exact ⟨Nat.lt_of_add_lt_add_left hlt, halign⟩

theorem offset_inj {c : Config} (hc : c.Wf) {r r' : Reg} (hr : r.inRange c = true) (hr' : r'.inRange c = true)
    (h : r.offset = r'.offset) : r = r' := by
  have haccess : r.access c = r'.access c := by rw [Reg.access, Reg.access, h]
  rw [← Option.some.injEq, ← accessReg_access hc hr, haccess, accessReg_access hc hr']

/-- The reserved ranges hold no register. -/
theorem not_reserved_offset {c : Config} (hc : c.Wf) {r : Reg} (hr : r.inRange c = true) : ¬ Reserved c r.offset := by
  obtain ⟨-, hn, -, hl, -⟩ := hc
  unfold Reserved
  cases r with
  | key i => have hi : i < c.nMax := of_decide_eq_true hr; simp only [Reg.offset]; omega
  | inp i => have hi : i < c.lMax := of_decide_eq_true hr; simp only [Reg.offset]; omega
  | out i => have hi : i < c.lMax := of_decide_eq_true hr; simp only [Reg.offset]; omega
  | _ => simp only [Reg.offset]; omega

/-- The reserved ranges leave out no aligned offset of the window but the registers'. -/
theorem exists_reg_of_not_reserved {c : Config} {off : Nat} (hoff : off < 0x4000) (halign : off % 4 = 0)
    (hres : ¬ Reserved c off) : ∃ r : Reg, r.inRange c = true ∧ off = r.offset := by
  unfold Reserved at hres
  have hoff : (off = 0x0000 ∨ off = 0x0004 ∨ off = 0x0008 ∨ off = 0x000C ∨ off = 0x0010 ∨ off = 0x0014) ∨
      (0x0100 ≤ off ∧ off < 0x0100 + 4 * c.nMax) ∨ (0x1000 ≤ off ∧ off < 0x1000 + 4 * c.lMax) ∨
      (0x2000 ≤ off ∧ off < 0x2000 + 4 * c.lMax) := by omega
  rcases hoff with (h | h | h | h | h | h) | ⟨hge, hlt⟩ | ⟨hge, hlt⟩ | ⟨hge, hlt⟩
  · exact ⟨.cmd, rfl, h⟩
  · exact ⟨.status, rfl, h⟩
  · exact ⟨.keylen, rfl, h⟩
  · exact ⟨.len, rfl, h⟩
  · exact ⟨.outlen, rfl, h⟩
  · exact ⟨.params, rfl, h⟩
  · exact ⟨.key ((off - 0x0100) / 4), decide_eq_true (by omega), by simp only [Reg.offset]; omega⟩
  · exact ⟨.inp ((off - 0x1000) / 4), decide_eq_true (by omega), by simp only [Reg.offset]; omega⟩
  · exact ⟨.out ((off - 0x2000) / 4), decide_eq_true (by omega), by simp only [Reg.offset]; omega⟩

theorem readOnly_iff {c : Config} {off : Nat} :
    ReadOnly c off ↔ ∃ r : Reg, r.inRange c = true ∧ r.writable = false ∧ off = r.offset := by
  constructor
  · rintro (h | h | h | ⟨i, hi, h⟩)
    · exact ⟨.status, rfl, rfl, h⟩
    · exact ⟨.outlen, rfl, rfl, h⟩
    · exact ⟨.params, rfl, rfl, h⟩
    · exact ⟨.out i, decide_eq_true hi, rfl, h⟩
  · rintro ⟨r, hr, hw, h⟩
    cases r with
    | status => exact .inl h
    | outlen => exact .inr (.inl h)
    | params => exact .inr (.inr (.inl h))
    | out i => exact .inr (.inr (.inr ⟨i, of_decide_eq_true hr, h⟩))
    | _ => cases hw

theorem readWrite_offset {c : Config} {r : Reg} (h : IsInputReg c r) : ReadWrite c r.offset := by
  obtain ⟨hr, hw, hcmd⟩ := h
  cases r with
  | cmd => exact absurd rfl hcmd
  | keylen => exact .inl rfl
  | len => exact .inr (.inl rfl)
  | key i => exact .inr (.inr (.inl ⟨i, of_decide_eq_true hr, rfl⟩))
  | inp i => exact .inr (.inr (.inr ⟨i, of_decide_eq_true hr, rfl⟩))
  | _ => cases hw

/-- A register that is neither CMD nor an input register is read-only. -/
theorem writable_eq_false {c : Config} {r : Reg} (hr : r.inRange c = true) (h0 : r.offset ≠ 0)
    (hrw : ¬ ReadWrite c r.offset) : r.writable = false :=
  Bool.eq_false_iff.2 fun hw => hrw (readWrite_offset ⟨hr, hw, by rintro rfl; exact h0 rfl⟩)

/-- R33 (a) to (c), 20_memory.md: the accesses to the window that reach no register. -/
theorem accessReg_at_eq_none_iff {c : Config} (hc : c.Wf) {off width : Nat} {lanes : BitVec 4} (hoff : off < 0x4000) :
    accessReg c ⟨c.base + off, width, lanes⟩ = none ↔
      (width ≠ 4 ∨ lanes ≠ 0b1111#4) ∨ off % 4 ≠ 0 ∨ Reserved c off := by
  constructor
  · intro hnone
    by_contra hlegal
    simp only [not_or, not_not] at hlegal
    obtain ⟨⟨hwidth, hlanes⟩, halign, hres⟩ := hlegal
    obtain ⟨r, hr, h⟩ := exists_reg_of_not_reserved hoff halign hres
    have hsome := (accessReg_at_eq_some_iff hc).2 ⟨hr, h, hwidth, hlanes⟩
    exact absurd (hnone.symm.trans hsome) nofun
  · intro hillegal
    refine Option.eq_none_iff_forall_ne_some.2 fun r hsome => ?_
    obtain ⟨hr, rfl, hwidth, hlanes⟩ := (accessReg_at_eq_some_iff hc).1 hsome
    rcases hillegal with (h | h) | h | h
    · exact h hwidth
    · exact h hlanes
    · exact h (offset_aligned_in_window hc hr).2
    · exact not_reserved_offset hc hr h

/-- R33 (a) to (d), 20_memory.md: the accesses to the window that reach no register the host may write. -/
theorem accessReg_at_not_writable_iff {c : Config} (hc : c.Wf) {off width : Nat} {lanes : BitVec 4}
    (hoff : off < 0x4000) :
    (∀ r, accessReg c ⟨c.base + off, width, lanes⟩ = some r → r.writable = false) ↔
      (width ≠ 4 ∨ lanes ≠ 0b1111#4) ∨ off % 4 ≠ 0 ∨ Reserved c off ∨ ReadOnly c off := by
  rw [← or_assoc (a := off % 4 ≠ 0), ← or_assoc, ← accessReg_at_eq_none_iff hc hoff]
  constructor
  · intro h
    rcases hacc : accessReg c ⟨c.base + off, width, lanes⟩ with _ | r
    · exact .inl rfl
    · obtain ⟨hr, hro, -⟩ := (accessReg_at_eq_some_iff hc).1 hacc
      exact .inr (readOnly_iff.2 ⟨r, hr, h r hacc, hro⟩)
  · rintro (hnone | hro) r hsome
    · exact absurd (hnone.symm.trans hsome) nofun
    · obtain ⟨hr, rfl, -⟩ := (accessReg_at_eq_some_iff hc).1 hsome
      obtain ⟨r', hr', hw, hoffset⟩ := readOnly_iff.1 hro
      rwa [offset_inj hc hr hr' hoffset]

/-- Every register but CMD is read-only or an input register, so no other offset reaches one. -/
theorem accessReg_wordAt_eq_none {c : Config} (hc : c.Wf) {off : Nat} (h0 : off ≠ 0) (hro : ¬ ReadOnly c off)
    (hrw : ¬ ReadWrite c off) : accessReg c (wordAt c off) = none := by
  refine Option.eq_none_iff_forall_ne_some.2 fun r hsome => ?_
  obtain ⟨hr, rfl, -⟩ := (accessReg_at_eq_some_iff hc).1 hsome
  exact hro (readOnly_iff.2 ⟨r, hr, writable_eq_false hr h0 hrw, rfl⟩)

/-! ### What a write does to the block -/

theorem writtenBlk_eq_none_iff {c : Config} {b : Block} {w : Word32} {r : Reg} :
    writtenBlk c b w r = none ↔ r.writable = false := by
  cases r <;> simp [writtenBlk, Reg.writable]

/-- A CMD write reads the inputs only, not the old outputs (R75, 60_exceptions.md). -/
theorem writtenBlk_cmd_of_sameInputs {c : Config} {b b' : Block} (w : Word32) (h : b.SameInputs b') :
    writtenBlk c b' w .cmd = writtenBlk c b w .cmd := by
  cases b
  cases b'
  obtain ⟨rfl, rfl, rfl, rfl⟩ := h
  rfl

/-- The same write again leaves the block that the first one left (R39, 20_memory.md). -/
theorem writtenBlk_again {c : Config} {b b' : Block} {w : Word32} {r : Reg} (h : writtenBlk c b w r = some b') :
    writtenBlk c b' w r = some b' := by
  cases r with
  | cmd => rw [writtenBlk_cmd_of_sameInputs w (writtenBlk_cmd_sameInputs h), h]
  | keylen => cases h; rfl
  | len => cases h; rfl
  | key i => cases h; simp [writtenBlk, Block.writeKey]
  | inp i => cases h; simp [writtenBlk, Block.writeInp]
  | _ => cases h

theorem execute_eq_writtenBlk (w : Word32) (s : State) :
    ∃ b, writtenBlk s.cfg s.blk w .cmd = some b ∧ execute w s = .next (s.withBlk b) := by
  rcases execute_cases w s with ⟨h, he⟩ | ⟨h, he⟩ | ⟨⟨_, h⟩, he⟩
  · exact ⟨_, by rw [writtenBlk, h], he⟩
  · exact ⟨_, by rw [writtenBlk, h], he⟩
  · exact ⟨_, by rw [writtenBlk, h], he⟩

/-! ### An access as a step -/

/-- How a host read ends, where it is not refused: with the register's word, or with a bus error. -/
def readResponse (c : Config) (b : Block) (a : Access) : Response :=
  match accessReg c a with
  | some r => .data (regValue c b r)
  | none => .fault (.busError a.addr)

/-- The block that a host write makes; none where it is a bus error. -/
def writtenAt (c : Config) (b : Block) (a : Access) (w : Word32) : Option Block :=
  (accessReg c a).bind (writtenBlk c b w)

/-- The block after a host write, which a bus error leaves as it was (R33, 20_memory.md). -/
def blkAfterWrite (c : Config) (b : Block) (a : Access) (w : Word32) : Block := (writtenAt c b a w).getD b

/-- How a host write ends. -/
def writeResponse (c : Config) (b : Block) (a : Access) (w : Word32) : Response :=
  if (writtenAt c b a w).isSome then .written else .fault (.busError a.addr)

theorem readResponse_access {c : Config} (hc : c.Wf) (b : Block) {r : Reg} (hr : r.inRange c = true) :
    readResponse c b (r.access c) = .data (regValue c b r) := by
  rw [readResponse, accessReg_access hc hr]

theorem writtenAt_eq_none_iff {c : Config} {b : Block} {a : Access} {w : Word32} :
    writtenAt c b a w = none ↔ ∀ r, accessReg c a = some r → r.writable = false := by
  simp [writtenAt, Option.bind_eq_none_iff, writtenBlk_eq_none_iff]

/-- The same write at the block that it left leaves that block (R39, 20_memory.md). -/
theorem blkAfterWrite_again (c : Config) (b : Block) (a : Access) (w : Word32) :
    blkAfterWrite c (blkAfterWrite c b a w) a w = blkAfterWrite c b a w := by
  rcases h : writtenAt c b a w with _ | b'
  · have hkept : blkAfterWrite c b a w = b := by rw [blkAfterWrite, h, Option.getD_none]
    rw [hkept, hkept]
  · obtain ⟨r, hacc, hb⟩ := Option.bind_eq_some_iff.1 h
    have hagain : writtenAt c b' a w = some b' := by rw [writtenAt, hacc, Option.bind_some, writtenBlk_again hb]
    have hleft : blkAfterWrite c b a w = b' := by rw [blkAfterWrite, h, Option.getD_some]
    rw [hleft, blkAfterWrite, hagain, Option.getD_some]

theorem stepsTo_read {s : State} {a : Access} {rest : List HostEvent} (hp : s.pending = .read a :: rest)
    (h : ErrLegal s.blk.err ∨ accessReg s.cfg a ≠ some .status) :
    StepsTo s rest s.blk (readResponse s.cfg s.blk a) := by
  rw [StepsTo, step_cons hp, perform_read (s.withPending rest) a h, readResponse]
  simp only [State.withPending_cfg, State.withPending_blk]
  cases accessReg s.cfg a with
  | none => rfl
  | some r => rfl

theorem stepsTo_write {s : State} {a : Access} {w : Word32} {rest : List HostEvent}
    (hp : s.pending = .write a w :: rest) :
    StepsTo s rest (blkAfterWrite s.cfg s.blk a w) (writeResponse s.cfg s.blk a w) := by
  rw [StepsTo, step_cons hp, perform_write, blkAfterWrite, writeResponse, writtenAt]
  simp only [State.withPending_cfg, State.withPending_blk]
  cases (accessReg s.cfg a).bind (writtenBlk s.cfg s.blk w) with
  | none => rfl
  | some b => rfl

theorem stepsTo_unique {s : State} {rest : List HostEvent} {b b' : Block} {r r' : Response}
    (h : StepsTo s rest b r) (h' : StepsTo s rest b' r') : b = b' ∧ r = r' := by
  have heq := h.symm.trans h'
  simp only [Host.Outcome.next.injEq, State.mk.injEq, true_and] at heq
  obtain ⟨hb, hr⟩ := heq
  exact ⟨hb, by simpa using hr⟩

/-- A read that ends in a next state is not refused. -/
theorem stepsTo_read_of_step {s t : State} {a : Access} {rest : List HostEvent}
    (hp : s.pending = .read a :: rest) (h : step s = .next t) :
    StepsTo s rest s.blk (readResponse s.cfg s.blk a) := by
  by_cases hlegal : ErrLegal s.blk.err ∨ accessReg s.cfg a ≠ some .status
  · exact stepsTo_read hp hlegal
  · rw [not_or, not_not] at hlegal
    obtain ⟨herr, hstatus⟩ := hlegal
    rw [step_cons hp, perform_read_refused (s.withPending rest) a herr hstatus] at h
    cases h

/-- With a legal ERR, each event the host can do is taken in one step, with one response for an access. -/
theorem exists_step_cons {s : State} {e : HostEvent} {rest : List HostEvent} (herr : ErrLegal s.blk.err)
    (hp : s.pending = e :: rest) :
    ∃ t rs, step s = .next t ∧ t.pending = rest ∧ t.responses = s.responses ++ rs ∧
      rs.length = ([e].filter IsAccess).length := by
  cases e with
  | read a => exact ⟨_, [_], stepsTo_read hp (.inl herr), rfl, rfl, rfl⟩
  | write a w => exact ⟨_, [_], stepsTo_write hp, rfl, rfl, rfl⟩
  | reset => exact ⟨_, [], step_cons hp, rfl, (List.append_nil _).symm, rfl⟩
  | resetDuringCmd w => exact ⟨_, [_], step_cons hp, rfl, rfl, rfl⟩

/-! ### Bus errors (R33, 20_memory.md) -/

theorem busErrors_read_iff {s : State} {a : Access} :
    BusErrors s (.read a) a.addr ↔ accessReg s.cfg a = none := by
  constructor
  · intro h
    obtain ⟨-, hr⟩ := stepsTo_unique (h []) (stepsTo_read_of_step rfl (h []))
    rcases hacc : accessReg s.cfg a with _ | r
    · rfl
    · rw [readResponse, hacc] at hr
      cases hr
  · intro hnone rest
    have hresponse : readResponse s.cfg s.blk a = .fault (.busError a.addr) := by rw [readResponse, hnone]
    rw [← hresponse]
    exact stepsTo_read rfl (.inr (by rw [hnone]; nofun))

theorem busErrors_write_iff {s : State} {a : Access} {w : Word32} :
    BusErrors s (.write a w) a.addr ↔ ∀ r, accessReg s.cfg a = some r → r.writable = false := by
  rw [← writtenAt_eq_none_iff (b := s.blk) (w := w)]
  constructor
  · intro h
    obtain ⟨-, hr⟩ := stepsTo_unique (h []) (stepsTo_write rfl)
    rcases hb : writtenAt s.cfg s.blk a w with _ | b
    · rfl
    · rw [writeResponse, hb] at hr
      cases hr
  · intro hnone rest
    have hstep := stepsTo_write (s := { s with pending := .write a w :: rest }) rfl
    rwa [blkAfterWrite, writeResponse, hnone] at hstep

/-- An access outside the window reaches no register (log 7). -/
theorem accessReg_outside {c : Config} {a : Access} (h : a.addr < c.base ∨ c.base + 0x4000 ≤ a.addr) :
    accessReg c a = none := by
  refine if_neg ?_
  rintro ⟨-, -, hge, hlt, -⟩
  exact h.elim (not_lt.2 hge) (not_le.2 hlt)

/-! ### The words of reads and writes (R37, R38, 20_memory.md) -/

theorem zext32_eq_ofNat {n : Nat} (v : BitVec n) : zext32 v = BitVec.ofNat 32 v.toNat := (BitVec.ofNat_toNat _ v).symm

theorem lowBits_eq_ofNat (n : Nat) (w : Word32) : lowBits n w = BitVec.ofNat n w.toNat := (BitVec.ofNat_toNat _ w).symm

theorem statusWord_eq_ofNat (b : Block) : statusWord b = BitVec.ofNat 32 (16 * b.err.toNat + b.done.toNat) := by
  rw [← toNat_statusWord, BitVec.ofNat_toNat, BitVec.setWidth_eq]

theorem paramsWord_eq_ofNat {c : Config} (hc : c.Wf) :
    paramsWord c = BitVec.ofNat 32 (5 * 2 ^ 24 + c.lMax * 2 ^ 8 + c.nMax) := by
  rw [← toNat_paramsWord hc, BitVec.ofNat_toNat, BitVec.setWidth_eq]

theorem readsAs_of_regValue {s : State} {r : Reg} {v : Word32} (hc : s.cfg.Wf) (hr : r.inRange s.cfg = true)
    (hs : r ≠ .status ∨ ErrLegal s.blk.err) (hv : regValue s.cfg s.blk r = v) : ReadsAs s r.offset v :=
  fun _ => hv ▸ step_read hc hr hs rfl

theorem writeLeaves_of_writtenBlk {s : State} {r : Reg} {w : Word32} {b : Block} (hc : s.cfg.Wf)
    (hr : r.inRange s.cfg = true) (hb : writtenBlk s.cfg s.blk w r = some b) : WriteLeaves s r.offset w b :=
  fun _ => step_write hc hr hb rfl

/-! ### The result of a command word (R59, 40_permute.md) -/

/-- A word is its two fields (R45, 30_encoding.md). -/
theorem zField_append_opField (w : Word32) : zField w ++ opField w = w := by
  refine BitVec.eq_of_toNat_eq ?_
  have hz : (zField w).toNat = w.toNat / 2 ^ 2 % 2 ^ 30 := by
    rw [zField, BitVec.extractLsb'_toNat, Nat.shiftRight_eq_div_pow]
  have hop : (opField w).toNat = w.toNat % 2 ^ 2 := by rw [opField, BitVec.extractLsb'_toNat, Nat.shiftRight_zero]
  rw [BitVec.toNat_append, ← Nat.shiftLeft_add_eq_or_of_lt (opField w).isLt, Nat.shiftLeft_eq, hz, hop]
  omega

/-- Only a command's own word decodes to it (R46, 30_encoding.md). -/
theorem eq_encodeWord_of_decodeWord {w : Word32} {i : Instr} (h : decodeWord w = .ok i) : w = encodeWord i := by
  unfold decodeWord at h
  rw [← zField_append_opField w]
  split_ifs at h with hz hencode hdecode
  · cases h
    rw [not_not.1 hz, hencode, encodeWord]
  · cases h
    rw [not_not.1 hz, hdecode, encodeWord]

/-- A CMD write runs the command whose word it is, and every other word fails with ILLEGAL_CMD. -/
theorem writtenBlk_cmd_result {c : Config} {b b' : Block} {w : Word32} (h : writtenBlk c b w .cmd = some b') :
    (∃ i : Instr, w = encodeWord i ∧ b' = b.runTransform c i.transform) ∨
      (¬ (w = 1#32 ∨ w = 2#32) ∧ b' = b.cmdError c errIllegalCmd) := by
  rw [writtenBlk, Option.some.injEq] at h
  subst h
  rcases hw : decodeWord w with e | i
  · refine .inr ⟨?_, rfl⟩
    rintro (rfl | rfl)
    · cases (show decodeWord 1#32 = .ok .encode from rfl).symm.trans hw
    · cases (show decodeWord 2#32 = .ok .decode from rfl).symm.trans hw
  · refine .inl ⟨i, eq_encodeWord_of_decodeWord hw, ?_⟩
    cases i with
    | encode => rfl
    | decode => rfl

theorem resultCode_encodeWord (c : Config) (b : Block) (i : Instr) :
    resultCode c b (encodeWord i) = operandError c b := by
  cases i with
  | encode => rfl
  | decode => rfl

theorem resultSym_encodeWord (c : Config) (b : Block) (i : Instr) (p : Nat) :
    resultSym c b (encodeWord i) p =
      if operandError c b = errNone ∧ p < b.textLen then symAt (i.transform b.n b.textLen b.key b.inp) p else 0#5 := by
  rw [resultSym, resultCode_encodeWord]
  cases i with
  | encode => rfl
  | decode => rfl

theorem resultCode_illegal {w : Word32} (c : Config) (b : Block) (hw : ¬ (w = 1#32 ∨ w = 2#32)) :
    resultCode c b w = errIllegalCmd := if_neg hw

theorem runTransform_outlen (c : Config) (f : Nat → Nat → List KeyWord → List Sym → List Sym) (b : Block) :
    (b.runTransform c f).outlen = if operandError c b = errNone then b.len else 0#16 := by
  rw [Block.runTransform]
  split <;> rfl

theorem symAt_runTransform_out (c : Config) (b : Block) (i : Instr) (p : Nat) :
    symAt (b.runTransform c i.transform).out p =
      if operandError c b = errNone ∧ p < b.textLen then symAt (i.transform b.n b.textLen b.key b.inp) p else 0#5 := by
  by_cases h : operandError c b = errNone
  · rw [Block.runTransform, if_pos h, Block.cmdSuccess_out, symAt_writePrefix, length_transform,
      symAt_replicate_zero, if_congr (and_iff_right h) rfl rfl]
  · rw [Block.runTransform, if_neg h, Block.cmdError_out, symAt_replicate_zero, if_neg fun hp => h hp.1]

theorem writtenBlk_cmd_err {c : Config} {b b' : Block} {w : Word32} (h : writtenBlk c b w .cmd = some b') :
    b'.err = resultCode c b w := by
  rcases writtenBlk_cmd_result h with ⟨i, rfl, rfl⟩ | ⟨hw, rfl⟩
  · rw [runTransform_err, resultCode_encodeWord]
  · rw [Block.cmdError_err, resultCode_illegal c b hw]

theorem writtenBlk_cmd_outlen {c : Config} {b b' : Block} {w : Word32} (h : writtenBlk c b w .cmd = some b') :
    b'.outlen = if resultCode c b w = 0#4 then b.len else 0#16 := by
  rcases writtenBlk_cmd_result h with ⟨i, rfl, rfl⟩ | ⟨hw, rfl⟩
  · rw [runTransform_outlen, resultCode_encodeWord, errNone]
  · rw [Block.cmdError_outlen, resultCode_illegal c b hw, if_neg (by decide)]

theorem symAt_writtenBlk_cmd_out {c : Config} {b b' : Block} {w : Word32} (h : writtenBlk c b w .cmd = some b')
    (p : Nat) : symAt b'.out p = resultSym c b w p := by
  rcases writtenBlk_cmd_result h with ⟨i, rfl, rfl⟩ | ⟨hw, rfl⟩
  · rw [symAt_runTransform_out, resultSym_encodeWord]
  · rw [Block.cmdError_out, symAt_replicate_zero, resultSym, resultCode_illegal c b hw,
      if_neg fun hp => absurd hp.1 (by decide)]

/-- A command's result code is legal, so a read after it is not refused. -/
theorem writtenBlk_cmd_errLegal {c : Config} {b b' : Block} {w : Word32} (h : writtenBlk c b w .cmd = some b') :
    ErrLegal b'.err := by
  rcases writtenBlk_cmd_cases h with ⟨i, rfl⟩ | rfl
  · exact (runTransform_outputConsistent c b i).1
  · exact (by decide : ErrLegal errIllegalCmd)

/-! ### The words that a read after a command returns (R40, R41, 20_memory.md) -/

theorem statusWord_after_cmd {c : Config} {b b' : Block} {w : Word32} (h : writtenBlk c b w .cmd = some b') :
    statusWord b' = BitVec.ofNat 32 (16 * (resultCode c b w).toNat + 1) := by
  rw [statusWord_eq_ofNat, writtenBlk_cmd_err h, writtenBlk_cmd_done h, Bool.toNat_true]

theorem outlenWord_after_cmd {c : Config} {b b' : Block} {w : Word32} (h : writtenBlk c b w .cmd = some b') :
    zext32 b'.outlen = BitVec.ofNat 32 (if resultCode c b w = 0#4 then b.len.toNat else 0) := by
  rw [zext32_eq_ofNat, writtenBlk_cmd_outlen h, apply_ite BitVec.toNat, BitVec.toNat_zero]

theorem outWord_after_cmd {c : Config} {b b' : Block} {w : Word32} (h : writtenBlk c b w .cmd = some b') (i : Nat) :
    zext32 (symAt b'.out i) = BitVec.ofNat 32 (resultSym c b w i).toNat := by
  rw [zext32_eq_ofNat, symAt_writtenBlk_cmd_out h]

end Sys2Proof.Machine

namespace Sys2Proof.Proofs

open Sys2Proof.Machine Sys2Proof.Claims

/-- Settles O29: an access reaches a register exactly where it is the legal access to it, and offsets are one-to-one. -/
theorem eachRegisterHasItsOwnOffset : Obligations.EachRegisterHasItsOwnOffset := by
  intro c hc
  refine ⟨fun r hr => ?_, fun r r' hr hr' => offset_inj hc hr hr', fun a r => (accessReg_eq_some_iff hc).1⟩
  obtain ⟨hlt, halign⟩ := offset_aligned_in_window hc hr
  exact ⟨hlt, halign, accessReg_access hc hr⟩

/-- Settles O24: a read is a bus error where it reaches no register, a write where it reaches none it may write. -/
theorem busErrorsAreExactlyTheIllegalAccesses : Obligations.BusErrorsAreExactlyTheIllegalAccesses := by
  intro s off width lanes w hc hoff
  exact ⟨busErrors_read_iff.trans (accessReg_at_eq_none_iff hc hoff),
    busErrors_write_iff.trans (accessReg_at_not_writable_iff hc hoff)⟩

/-- Settles O25: such an access reaches no register. -/
theorem accessesOutsideTheWindowFault : Obligations.AccessesOutsideTheWindowFault := by
  intro s a w h
  have hnone := accessReg_outside h
  exact ⟨busErrors_read_iff.2 hnone, busErrors_write_iff.2 fun r hsome => absurd (hnone.symm.trans hsome) nofun⟩

/-- Settles O22: a read leaves the block that its response comes from, and the same write again writes the same. -/
theorem repeatedAccessesChangeNothing : Obligations.RepeatedAccessesChangeNothing := by
  intro s e rest t u hp ht hu
  constructor
  · rintro ⟨a, rfl⟩
    cases ht.symm.trans (stepsTo_read_of_step hp ht)
    cases hu.symm.trans (stepsTo_read_of_step rfl hu)
    exact ⟨rfl, rfl, _, rfl, List.append_assoc ..⟩
  · rintro ⟨a, w, rfl⟩
    cases ht.symm.trans (stepsTo_write hp)
    cases hu.symm.trans (stepsTo_write rfl)
    exact blkAfterWrite_again ..

/-- Settles O26: the legal read of each register returns its word, and the other offsets reach no register. -/
theorem readsReturnTheRegisters : Obligations.ReadsReturnTheRegisters := by
  intro s hc herr
  and_intros
  · exact readsAs_of_regValue (r := .cmd) hc rfl (.inr herr) rfl
  · exact readsAs_of_regValue (r := .status) hc rfl (.inr herr) (statusWord_eq_ofNat s.blk)
  · exact readsAs_of_regValue (r := .keylen) hc rfl (.inr herr) (zext32_eq_ofNat _)
  · exact readsAs_of_regValue (r := .len) hc rfl (.inr herr) (zext32_eq_ofNat _)
  · exact readsAs_of_regValue (r := .outlen) hc rfl (.inr herr) (zext32_eq_ofNat _)
  · exact readsAs_of_regValue (r := .params) hc rfl (.inr herr) (paramsWord_eq_ofNat hc)
  · exact fun i hi => readsAs_of_regValue (r := .key i) hc (decide_eq_true hi) (.inr herr) (zext32_eq_ofNat _)
  · exact fun i hi => readsAs_of_regValue (r := .inp i) hc (decide_eq_true hi) (.inr herr) (zext32_eq_ofNat _)
  · exact fun i hi => readsAs_of_regValue (r := .out i) hc (decide_eq_true hi) (.inr herr) (zext32_eq_ofNat _)
  · exact fun off _ h0 hro hrw => busErrors_read_iff.2 (accessReg_wordAt_eq_none hc h0 hro hrw)

/-- Settles O27: the legal write of each register makes the block with its field stored, or is a bus error. -/
theorem writesStoreTheField : Obligations.WritesStoreTheField := by
  intro s w hc
  obtain ⟨b, hb, hexec⟩ := execute_eq_writtenBlk w s
  and_intros
  · exact ⟨_, hexec, writeLeaves_of_writtenBlk (r := .cmd) hc rfl hb⟩
  · rw [← lowBits_eq_ofNat]
    exact writeLeaves_of_writtenBlk (r := .keylen) hc rfl rfl
  · rw [← lowBits_eq_ofNat]
    exact writeLeaves_of_writtenBlk (r := .len) hc rfl rfl
  · intro i hi
    rw [← lowBits_eq_ofNat]
    exact writeLeaves_of_writtenBlk (r := .key i) hc (decide_eq_true hi) rfl
  · intro i hi
    rw [← lowBits_eq_ofNat]
    exact writeLeaves_of_writtenBlk (r := .inp i) hc (decide_eq_true hi) rfl
  · intro off hro rest
    obtain ⟨r, hr, hw, rfl⟩ := readOnly_iff.1 hro
    exact step_write_readOnly hc hr (writtenBlk_eq_none_iff.2 hw) rfl
  · intro off _ h0 hrw
    refine busErrors_write_iff.2 fun r hsome => ?_
    obtain ⟨hr, rfl, -⟩ := (accessReg_at_eq_some_iff hc).1 hsome
    exact writable_eq_false hr h0 hrw

/-- Settles O33: the read finds the block that the CMD write left, whose ERR is legal. -/
theorem nextReadSeesTheCommandsResult : Obligations.NextReadSeesTheCommandsResult := by
  intro s w off rest hc hp
  obtain ⟨b, hb, -⟩ := execute_eq_writtenBlk w s
  refine ⟨_, _, readResponse s.cfg b (wordAt s.cfg off), step_write (r := .cmd) hc rfl hb hp,
    stepsTo_read rfl (.inl (writtenBlk_cmd_errLegal hb)), List.append_assoc .., ?_, ?_, ?_⟩
  · rintro rfl
    rw [← statusWord_after_cmd hb]
    exact readResponse_access (r := .status) hc b rfl
  · rintro rfl
    rw [← outlenWord_after_cmd hb]
    exact readResponse_access (r := .outlen) hc b rfl
  · rintro i hi rfl
    rw [← outWord_after_cmd hb]
    exact readResponse_access (r := .out i) hc b (decide_eq_true hi)

/-- Settles O43: a step with nothing pending keeps the state, and any event is taken in one step. -/
theorem everyHostEventIsTaken : Obligations.EveryHostEventIsTaken := by
  rintro s ⟨-, herr, -⟩
  rcases hp : s.pending with _ | ⟨e, rest⟩
  · exact ⟨s, step_nil s hp, hp, [], (List.append_nil _).symm, rfl⟩
  · obtain ⟨t, rs, hstep, hpending, hresponses, hlen⟩ := exists_step_cons herr hp
    exact ⟨t, hstep, hpending, rs, hresponses, hlen⟩

/-- Settles O5: a CMD write of a command's word runs the command's transform, which is what exec does. -/
theorem stepRunsTheDecodedCommand : Obligations.StepRunsTheDecodedCommand := by
  constructor
  · intro s rest w i hp hw
    exact ⟨_, exec_eq_runTransform i _, step_cmdWrite hw hp⟩
  · intro s i
    exact ⟨_, exec_eq_runTransform i s, step_cmdWrite (decodeWord_tableWord_encodeWord i) rfl⟩

end Sys2Proof.Proofs
end

section
/-! PROOF. O1, O2, O3, O4, O8, O35 and O36, the rules of 30_encoding.md: the command words, their bytes and what the
decoder rejects; an illegal word's step; and the pseudo-operations. A word decodes to a command exactly where it is the
command's word (`decodeWord_eq_ok_iff`), and a pseudo-operation is a list of accesses that runs from a block to a block
(`RunsTo`). -/

namespace Sys2Proof

open Sys2Proof.Machine (eq_encodeWord_of_decodeWord)

/-! ### Command words (R45 to R47, 30_encoding.md) -/

@[simp] theorem decodeWord_encodeWord (i : Instr) : decodeWord (encodeWord i) = .ok i := by
  cases i with
  | encode => rfl
  | decode => rfl

theorem decodeWord_eq_ok_iff {w : Word32} {i : Instr} : decodeWord w = .ok i ↔ w = encodeWord i :=
  ⟨eq_encodeWord_of_decodeWord, fun h => by rw [h, decodeWord_encodeWord]⟩

theorem decodeWord_eq_error_iff {w : Word32} : (∃ e, decodeWord w = .error e) ↔ ∀ i, w ≠ encodeWord i := by
  simp only [ne_eq, ← decodeWord_eq_ok_iff]
  cases decodeWord w with
  | error e => exact ⟨fun _ i => nofun, fun _ => ⟨e, rfl⟩⟩
  | ok i => exact ⟨nofun, fun h => absurd rfl (h i)⟩

theorem zField_eq_ofNat (w : Word32) : zField w = BitVec.ofNat 30 (w.toNat / 4) := by
  rw [← BitVec.toNat_inj, zField, BitVec.extractLsb'_toNat, Nat.shiftRight_eq_div_pow, BitVec.toNat_ofNat]

/-- Z is not zero in a word of 4 or more. -/
theorem zField_ne_zero {w : Word32} (h : 4 ≤ w.toNat) : zField w ≠ 0#30 := by
  rw [zField_eq_ofNat, ne_eq, ← BitVec.toNat_inj, BitVec.toNat_ofNat, BitVec.toNat_ofNat]
  omega

theorem decodeWord_of_zField_ne_zero {w : Word32} (h : zField w ≠ 0#30) :
    decodeWord w = .error (.nonzeroZ (zField w)) := if_pos h

/-! ### Byte lanes (R36, 20_memory.md) -/

theorem decodeBytes_lanesOfWord (w : Word32) : decodeBytes (lanesOfWord w) = decodeWord w := by
  have hword : wordOfLanes (w.extractLsb' 0 8) (w.extractLsb' 8 8) (w.extractLsb' 16 8) (w.extractLsb' 24 8) = w := by
    rw [wordOfLanes, BitVec.extractLsb'_append_extractLsb'_eq_extractLsb' (by decide : 24 = 16 + 8),
      BitVec.extractLsb'_append_extractLsb'_eq_extractLsb' (by decide : 16 = 8 + 8),
      BitVec.extractLsb'_append_extractLsb'_eq_extractLsb' (by decide : 8 = 0 + 8), BitVec.extractLsb'_eq_self]
  rw [lanesOfWord, decodeBytes, hword]

theorem lanesOfWord_wordOfLanes (b0 b1 b2 b3 : BitVec 8) :
    lanesOfWord (wordOfLanes b0 b1 b2 b3) = [b0, b1, b2, b3] := by
  have h0 : (wordOfLanes b0 b1 b2 b3).extractLsb' 0 8 = b0 := BitVec.extractLsb'_append_eq_right
  have h1 : (wordOfLanes b0 b1 b2 b3).extractLsb' 8 8 = b1 :=
    (BitVec.extractLsb'_append_eq_of_le (by decide)).trans BitVec.extractLsb'_append_eq_right
  have h2 : (wordOfLanes b0 b1 b2 b3).extractLsb' 16 8 = b2 :=
    (BitVec.extractLsb'_append_eq_of_le (by decide)).trans <|
      (BitVec.extractLsb'_append_eq_of_le (by decide)).trans BitVec.extractLsb'_append_eq_right
  have h3 : (wordOfLanes b0 b1 b2 b3).extractLsb' 24 8 = b3 :=
    (BitVec.extractLsb'_append_eq_of_le (by decide)).trans <|
      (BitVec.extractLsb'_append_eq_of_le (by decide)).trans BitVec.extractLsb'_append_eq_left
  rw [lanesOfWord, h0, h1, h2, h3]

/-- Bytes that decode to a command are the lanes of a word that does. -/
theorem exists_word_of_decodeBytes {bs : List (BitVec 8)} {i : Instr} (h : decodeBytes bs = .ok i) :
    ∃ w, bs = lanesOfWord w ∧ decodeWord w = .ok i := by
  unfold decodeBytes at h
  split at h
  · next b0 b1 b2 b3 => exact ⟨_, (lanesOfWord_wordOfLanes b0 b1 b2 b3).symm, h⟩
  · cases h

theorem decodeBytes_eq_ok_iff {bs : List (BitVec 8)} {i : Instr} : decodeBytes bs = .ok i ↔ bs = encodeBytes i := by
  constructor
  · intro h
    obtain ⟨w, rfl, hw⟩ := exists_word_of_decodeBytes h
    rw [eq_encodeWord_of_decodeWord hw, encodeBytes]
  · rintro rfl
    rw [encodeBytes, decodeBytes_lanesOfWord, decodeWord_encodeWord]

/-- The table's 32-bit number of a word is read as that word. -/
theorem decodeTableWord_eq_some_iff {w : Nat} (hw : w < 2 ^ 32) {i : Instr} :
    decodeTableWord 32 w = some i ↔ BitVec.ofNat 32 w = encodeWord i := by
  rw [decodeTableWord, tableWord, Nat.mod_eq_of_lt hw, if_pos hw, decodeBytes_lanesOfWord, ← decodeWord_eq_ok_iff]
  cases decodeWord (BitVec.ofNat 32 w) with
  | error e => exact ⟨nofun, nofun⟩
  | ok j => simp [Except.toOption]

end Sys2Proof

namespace Sys2Proof.Machine

open Sys2Proof.Claims (StepsTo)

/-! ### A CMD write as a step, whatever the parameters -/

theorem stepsTo_cmdWrite {s : State} {w : Word32} {b : Block} {rest : List HostEvent}
    (hb : writtenBlk s.cfg s.blk w .cmd = some b) (hp : s.pending = cmdWrite s.cfg w :: rest) :
    StepsTo s rest b .written := by
  have hstored : writtenAt s.cfg s.blk (Reg.cmd.access s.cfg) w = some b := by
    rw [writtenAt, accessReg_cmd, Option.bind_some, hb]
  have hstep := stepsTo_write hp
  rwa [blkAfterWrite, writeResponse, hstored] at hstep

theorem writtenBlk_cmd_illegal (c : Config) (b : Block) {w : Word32} (hw : ¬ (w = 1#32 ∨ w = 2#32)) :
    writtenBlk c b w .cmd = some (b.cmdError c errIllegalCmd) := by
  have hillegal : ∀ i, w ≠ encodeWord i := by
    rintro (_ | _) rfl
    · exact hw (.inl rfl)
    · exact hw (.inr rfl)
  obtain ⟨e, he⟩ := decodeWord_eq_error_iff.2 hillegal
  rw [writtenBlk, he]

/-! ### Lists of accesses -/

/-- The host's accesses `es` take a block with the parameters `c` from `b` to `b'`, one step each, and get the responses
`rs`, whatever the host has done before and does after them. -/
def RunsTo (c : Config) (b : Block) (es : List HostEvent) (b' : Block) (rs : List Response) : Prop :=
  ∀ s : State, s.cfg = c → s.blk = b → ∀ rest, s.pending = es ++ rest →
    Host.Core.run core es.length s =
      .next { s with blk := b', pending := rest, responses := s.responses ++ rs }

variable {c : Config} {b b' b'' : Block} {es es' : List HostEvent} {rs rs' : List Response}

theorem runsTo_nil (c : Config) (b : Block) : RunsTo c b [] b [] := by
  rintro s - rfl rest rfl
  rw [List.length_nil, run_zero, List.append_nil]

theorem RunsTo.append (h : RunsTo c b es b' rs) (h' : RunsTo c b' es' b'' rs') :
    RunsTo c b (es ++ es') b'' (rs ++ rs') := by
  intro s hc hb rest hp
  rw [List.append_assoc] at hp
  rw [List.length_append, run_append (h s hc hb _ hp), ← List.append_assoc s.responses]
  exact h' { s with blk := b', pending := es' ++ rest, responses := s.responses ++ rs } hc rfl rest rfl

theorem RunsTo.run {s : State} {b : Block} (h : RunsTo s.cfg s.blk es b rs) :
    Host.Core.run core es.length { s with pending := es } =
      .next { s with blk := b, pending := [], responses := s.responses ++ rs } :=
  h { s with pending := es } rfl rfl [] (List.append_nil es).symm

theorem runsTo_write {r : Reg} {w : Word32} (hc : c.Wf) (hr : r.inRange c = true)
    (hb : writtenBlk c b w r = some b') : RunsTo c b [.write (r.access c) w] b' [.written] := by
  rintro s rfl rfl rest hp
  exact run_succ (step_write hc hr hb hp)

theorem runsTo_read {r : Reg} (hc : c.Wf) (hr : r.inRange c = true) (hs : r ≠ .status ∨ ErrLegal b.err) :
    RunsTo c b [.read (r.access c)] b [.data (regValue c b r)] := by
  rintro s rfl rfl rest hp
  exact run_succ (step_read hc hr hs hp)

/-! ### Prefixes of arrays -/

/-- The element after the first `ys.length` ones, written. -/
theorem set_append_drop {α : Type} {xs ys : List α} (y : α) (h : ys.length < xs.length) :
    (ys ++ xs.drop ys.length).set ys.length y = (ys ++ [y]) ++ xs.drop (ys ++ [y]).length := by
  rw [List.set_append_right _ _ le_rfl, Nat.sub_self, List.drop_eq_getElem_cons h, List.set_cons_zero,
    List.length_append, List.length_singleton, List.append_assoc, List.singleton_append]

theorem take_succ_eq_append_symAt {xs : List Sym} {l : Nat} (h : l < xs.length) :
    xs.take (l + 1) = xs.take l ++ [symAt xs l] := by
  rw [← List.take_append_getElem h, symAt, List.getD_eq_getElem _ _ h]

/-- The block with the first values of KEY written. -/
def Block.loadKeyPrefix (b : Block) (vs : List Word32) : Block :=
  { b with key := vs.map (lowBits 8) ++ b.key.drop vs.length }

/-- The block with the first symbols of IN written. -/
def Block.loadInpPrefix (b : Block) (xs : List Sym) : Block := { b with inp := xs ++ b.inp.drop xs.length }

@[simp] theorem Block.loadKeyPrefix_nil (b : Block) : b.loadKeyPrefix [] = b := rfl

@[simp] theorem Block.loadInpPrefix_nil (b : Block) : b.loadInpPrefix [] = b := rfl

theorem Block.loadKeyPrefix_writeKey {b : Block} {vs : List Word32} (v : Word32) (h : vs.length < b.key.length) :
    (b.loadKeyPrefix vs).writeKey vs.length v = b.loadKeyPrefix (vs ++ [v]) := by
  have hset := set_append_drop (xs := b.key) (ys := vs.map (lowBits 8)) (lowBits 8 v) (by rwa [List.length_map])
  simp only [List.length_map, List.length_append, List.length_singleton] at hset
  simp only [Block.loadKeyPrefix, Block.writeKey, hset, List.map_append, List.map_singleton, List.length_append,
    List.length_singleton]

theorem Block.loadInpPrefix_writeInp {b : Block} {xs : List Sym} (v : Word32) (h : xs.length < b.inp.length) :
    (b.loadInpPrefix xs).writeInp xs.length v = b.loadInpPrefix (xs ++ [lowBits 5 v]) := by
  rw [Block.writeInp, Block.loadInpPrefix, Block.loadInpPrefix, set_append_drop _ h]

/-! ### LOADKEY and LOADTEXT (R50, 30_encoding.md) -/

theorem writeArray_concat (reg : Nat → Reg) (start : Nat) (vs : List Word32) (v : Word32) :
    writeArray reg start (vs ++ [v]) = writeArray reg start vs ++ [.wr (reg (start + vs.length)) v] := by
  induction vs generalizing start with
  | nil => rfl
  | cons u vs ih =>
    rw [List.cons_append, writeArray, writeArray, ih, List.length_cons, Nat.add_right_comm, Nat.add_assoc,
      List.cons_append]

@[simp] theorem length_writeArray (reg : Nat → Reg) (start : Nat) (vs : List Word32) :
    (writeArray reg start vs).length = vs.length := by
  induction vs generalizing start with
  | nil => rfl
  | cons v vs ih => rw [writeArray, List.length_cons, List.length_cons, ih]

/-- The writes of an array run to `f vs`, where `f us` is the block once the values `us` are written. -/
theorem runsTo_writeArray {reg : Nat → Reg} {f : List Word32 → Block} {count : Nat} (hc : c.Wf)
    (hr : ∀ i < count, (reg i).inRange c = true)
    (hf : ∀ us v, us.length < count → writtenBlk c (f us) v (reg us.length) = some (f (us ++ [v])))
    (vs : List Word32) (hvs : vs.length ≤ count) :
    RunsTo c (f []) ((writeArray reg 0 vs).map (HostOp.event c)) (f vs) (vs.map fun _ => .written) := by
  induction vs using List.reverseRecOn with
  | nil => exact runsTo_nil c _
  | append_singleton vs v ih =>
    rw [List.length_append, List.length_singleton] at hvs
    rw [writeArray_concat, Nat.zero_add, List.map_append, List.map_append]
    exact (ih (by omega)).append (runsTo_write hc (hr _ hvs) (hf vs v hvs))

theorem runsTo_loadKey (hc : c.Wf) (hb : b.Sized c) {vs : List Word32} (hvs : vs.length ≤ c.nMax) :
    RunsTo c b ((loadKey vs).map (HostOp.event c))
      ((b.writeKeylen (BitVec.ofNat 32 vs.length)).loadKeyPrefix vs) (.written :: vs.map fun _ => .written) := by
  obtain ⟨hkey, -, -⟩ := hb
  refine (runsTo_write (r := .keylen) hc rfl rfl).append ?_
  refine runsTo_writeArray (reg := .key) (f := (b.writeKeylen _).loadKeyPrefix) hc
    (fun i hi => decide_eq_true hi) ?_ vs hvs
  intro us v hus
  rw [writtenBlk, Block.loadKeyPrefix_writeKey v (by rwa [Block.writeKeylen_key, hkey])]

theorem runsTo_loadText (hc : c.Wf) (hb : b.Sized c) {vs : List Word32} (hvs : vs.length ≤ c.lMax) :
    RunsTo c b ((loadText vs).map (HostOp.event c))
      ((b.writeLen (BitVec.ofNat 32 vs.length)).loadInpPrefix (vs.map (lowBits 5)))
      (.written :: vs.map fun _ => .written) := by
  obtain ⟨-, hinp, -⟩ := hb
  refine (runsTo_write (r := .len) hc rfl rfl).append ?_
  refine runsTo_writeArray (reg := .inp) (f := fun us => (b.writeLen _).loadInpPrefix (us.map (lowBits 5))) hc
    (fun i hi => decide_eq_true hi) ?_ vs hvs
  intro us v hus
  have hlen : (us.map (lowBits 5)).length < (b.writeLen (BitVec.ofNat 32 vs.length)).inp.length := by
    rwa [List.length_map, Block.writeLen_inp, hinp]
  have hwrite := Block.loadInpPrefix_writeInp v hlen
  rw [List.length_map] at hwrite
  rw [writtenBlk, hwrite, List.map_append, List.map_singleton]

/-! ### READOUT and COPYBACK (R50, 30_encoding.md) -/

/-- Reads of registers other than STATUS return their words and leave the block as it is. -/
theorem runsTo_reads (hc : c.Wf) (b : Block) {regs : List Reg}
    (h : ∀ r ∈ regs, r.inRange c = true ∧ r ≠ .status) :
    RunsTo c b (regs.map fun r => .read (r.access c)) b (regs.map fun r => .data (regValue c b r)) := by
  induction regs with
  | nil => exact runsTo_nil c b
  | cons r regs ih =>
    rw [List.forall_mem_cons] at h
    obtain ⟨⟨hr, hs⟩, hregs⟩ := h
    exact (runsTo_read hc hr (.inl hs)).append (ih hregs)

/-- The first `l` symbols of OUT, one after the other. -/
theorem map_symAt_range {xs : List Sym} {l : Nat} (h : l ≤ xs.length) :
    (List.range l).map (symAt xs) = xs.take l := by
  induction l with
  | zero => rfl
  | succ l ih => rw [List.range_succ, List.map_append, ih (by omega), take_succ_eq_append_symAt h, List.map_singleton]

theorem runsTo_readOut (hc : c.Wf) (hb : b.Sized c) {l : Nat} (hl : l ≤ c.lMax) :
    RunsTo c b ((readOut l).map (HostOp.event c)) b
      (.data (zext32 b.outlen) :: (b.out.take l).map fun v => .data (zext32 v)) := by
  obtain ⟨-, -, hout⟩ := hb
  have hreads := runsTo_reads hc b (regs := .outlen :: (List.range l).map .out) fun r hr => by
    simp only [List.mem_cons, List.mem_map, List.mem_range] at hr
    rcases hr with rfl | ⟨i, hi, rfl⟩
    · exact ⟨rfl, nofun⟩
    · exact ⟨decide_eq_true (by omega), nofun⟩
  rw [← map_symAt_range (hout.symm ▸ hl), readOut, List.map_cons, List.map_map, List.map_map]
  rw [List.map_cons, List.map_cons, List.map_map, List.map_map] at hreads
  exact hreads

/-- The two accesses for each `i` move OUT[i] to IN[i], after the elements before it. -/
theorem runsTo_copyBack (hc : c.Wf) (hb : b.Sized c) {l : Nat} (hl : l ≤ c.lMax) :
    RunsTo c b ((copyBack b l).map (HostOp.event c)) (b.loadInpPrefix (b.out.take l))
      ((b.out.take l).flatMap fun v => [.data (zext32 v), .written]) := by
  obtain ⟨-, hinp, hout⟩ := hb
  induction l with
  | zero => exact runsTo_nil c b
  | succ l ih =>
    have hlen : (b.out.take l).length = l := List.length_take_of_le (by omega)
    have hwrite := Block.loadInpPrefix_writeInp (b := b) (xs := b.out.take l) (zext32 (symAt b.out l)) (by omega)
    have hfield : lowBits 5 (zext32 (symAt b.out l)) = symAt b.out l :=
      (BitVec.setWidth_setWidth_of_le _ (by decide)).trans (BitVec.setWidth_eq _)
    rw [hlen, hfield] at hwrite
    rw [copyBack_succ, List.map_append, take_succ_eq_append_symAt (by omega), List.flatMap_append]
    refine (ih (by omega)).append ?_
    refine (runsTo_read (r := .out l) hc (decide_eq_true hl) (.inl nofun)).append ?_
    exact runsTo_write (r := .inp l) hc (decide_eq_true hl) (congrArg some hwrite)

/-- The entries 2i of a list of pairs are the pairs' first halves. -/
theorem getElem?_flatMap_pair {α β : Type} (f g : α → β) (xs : List α) (i : Nat) :
    (xs.flatMap fun x => [f x, g x])[2 * i]? = xs[i]?.map f := by
  induction xs generalizing i with
  | nil => rfl
  | cons x xs ih =>
    cases i with
    | zero => rfl
    | succ i => exact ih i

/-- The accesses 2i and 2i + 1 of COPYBACK, and the response to the first. -/
theorem copyBack_accesses {l i : Nat} (hl : l ≤ b.out.length) (hi : i < l) (past : List Response) :
    ((copyBack b l).map (HostOp.event c))[2 * i]? = some (.read ((Reg.out i).access c)) ∧
    (past ++ (b.out.take l).flatMap fun v => [.data (zext32 v), .written])[past.length + 2 * i]? =
      some (.data (zext32 (symAt b.out i))) ∧
    ((copyBack b l).map (HostOp.event c))[2 * i + 1]? =
      some (.write ((Reg.inp i).access c) (zext32 (symAt b.out i))) := by
  obtain ⟨hread, hwrite⟩ := getElem?_copyBack b hi
  have hget : b.out[i]? = some (symAt b.out i) := by
    rw [symAt, List.getD_eq_getElem?_getD, List.getElem?_eq_getElem (by omega), Option.getD_some]
  refine ⟨?_, ?_, ?_⟩
  · rw [List.getElem?_map, hread]
    rfl
  · rw [List.getElem?_append_right (by omega), Nat.add_sub_cancel_left, getElem?_flatMap_pair,
      List.getElem?_take_of_lt hi, hget]
    rfl
  · rw [List.getElem?_map, hwrite]
    rfl

end Sys2Proof.Machine

namespace Sys2Proof.Proofs

open Sys2Proof.Machine Sys2Proof.Claims

/-- Settles O2: bytes decode to a command exactly where they are the lanes of its word, and so does a table number. -/
theorem commandBytesDecodeBack : Obligations.CommandBytesDecodeBack :=
  fun _ _ => ⟨decodeBytes_eq_ok_iff.2 rfl, fun _ => decodeBytes_eq_ok_iff.1,
    fun _ hw => decodeTableWord_eq_some_iff hw⟩

/-- Settles O1: a word decodes to a command exactly where it is the command's word. -/
theorem exactlyTwoCommandWordsAreLegal : Obligations.ExactlyTwoCommandWordsAreLegal :=
  fun _ => ⟨decodeWord_eq_ok_iff (i := .encode), decodeWord_eq_ok_iff (i := .decode)⟩

/-- Settles O35: each pseudo-operation writes the count and then its array, element after element. -/
theorem loadPseudoOperationsLoadTheOperands : Obligations.LoadPseudoOperationsLoadTheOperands := by
  rintro s vs ⟨hc, hb⟩
  constructor
  · intro hvs
    have hrun := (runsTo_loadKey hc hb hvs).run
    rw [List.length_map, loadKey, List.length_cons, length_writeArray, Block.writeKeylen, lowBits,
      BitVec.setWidth_ofNat_of_le (by decide)] at hrun
    exact ⟨_, hrun, rfl, rfl⟩
  · intro hvs
    have hrun := (runsTo_loadText hc hb hvs).run
    rw [List.length_map, loadText, List.length_cons, length_writeArray, Block.writeLen, lowBits,
      BitVec.setWidth_ofNat_of_le (by decide), Block.loadInpPrefix, List.length_map] at hrun
    exact ⟨_, hrun, rfl, rfl⟩

/-- Settles O36: READOUT only reads; COPYBACK's pairs of accesses move OUT to IN, element after element. -/
theorem readoutAndCopybackMoveTheOutput : Obligations.ReadoutAndCopybackMoveTheOutput := by
  rintro s l ⟨hc, hb⟩ hl
  have hout : l ≤ s.blk.out.length := hb.2.2.symm ▸ hl
  constructor
  · have hrun := (runsTo_readOut hc hb hl).run
    rw [List.length_map, readOut, List.length_cons, List.length_map, List.length_range] at hrun
    exact ⟨_, hrun, rfl, rfl, rfl⟩
  · have hlen : ((copyBack s.blk l).map (HostOp.event s.cfg)).length = 2 * l := by
      rw [List.length_map, length_copyBack]
    have hrun := (runsTo_copyBack hc hb hl).run
    rw [hlen, Block.loadInpPrefix, List.length_take_of_le hout] at hrun
    exact ⟨_, _, rfl, hlen, hrun, rfl, rfl, rfl, fun i hi => ⟨_, copyBack_accesses hout hi s.responses⟩⟩

/-- Settles O3: a word is rejected where it is no command's word; a word of 4 or more has a nonzero Z. -/
theorem illegalWordsAreRejectedByName : Obligations.IllegalWordsAreRejectedByName := by
  intro w
  refine ⟨?_, fun h => ?_, ?_, ?_⟩
  · rw [decodeWord_eq_error_iff]
    refine ⟨fun h => ⟨h .encode, h .decode⟩, ?_⟩
    rintro ⟨hencode, hdecode⟩ (_ | _)
    · exact hencode
    · exact hdecode
  · rw [← zField_eq_ofNat]
    exact decodeWord_of_zField_ne_zero (zField_ne_zero h)
  · rintro rfl
    rfl
  · rintro rfl
    rfl

/-- Settles O4: the words written out are the encoder's, and so are the byte lanes. -/
theorem opcodeMapWordsDecode : Obligations.OpcodeMapWordsDecode :=
  ⟨decodeWord_encodeWord .encode, decodeWord_encodeWord .decode, decodeBytes_eq_ok_iff.2 rfl,
    decodeBytes_eq_ok_iff.2 rfl⟩

/-- Settles O8: a CMD write of an illegal word makes the failed block with ILLEGAL_CMD. -/
theorem illegalWordEndsWithIllegalCmd : Obligations.IllegalWordEndsWithIllegalCmd := by
  intro s rest w hp h1 h2
  exact stepsTo_cmdWrite (writtenBlk_cmd_illegal s.cfg s.blk (not_or.2 ⟨h1, h2⟩)) hp

end Sys2Proof.Proofs
end

section
/-! PROOF. O9 to O15 and O17 to O19, the rules of 40_permute.md: the key predicate, the two index maps, Enc and Dec, and
the two commands. A transform is known by where it puts each cell (`symAt_enc_cell`, `symAt_dec_cell`), every position is
a cell's place (`exists_cell_rowMajor`, `exists_cell_colMajor`), and a command is its checks and its transform
(`exec_result`). -/

namespace Sys2Proof.Machine

open Sys2Proof.Claims (OnlyOutputsDiffer operandCode)

section Transforms

variable {n l rows : Nat} {key key' : List KeyWord} {inp inp' : List Sym}

/-! ### The key predicate (R52, 40_permute.md) -/

/-- Every value of 1 … n is a column's: with one row, the column-major index of a column is its key value less 1. -/
theorem exists_column (hk : KeyValid n key) {v : Nat} (h1 : 1 ≤ v) (hn : v ≤ n) : ∃ c < n, keyVal key c = v := by
  obtain ⟨⟨c, r⟩, ⟨hc, hr⟩, h⟩ := exists_cell_colMajor (rows := 1) (p := v - 1) hk (by omega)
  have hv := hk.2.1 c hc
  simp only [colMajor, Nat.mul_one] at h
  exact ⟨c, hc, by omega⟩

/-- n columns that take all n values of 1 … n take each once. -/
theorem keyVal_injOn_of_values (h : ∀ v, (∃ c < n, keyVal key c = v) ↔ 1 ≤ v ∧ v ≤ n) :
    Set.InjOn (keyVal key) (Finset.range n) := by
  have himage : (Finset.range n).image (keyVal key) = Finset.Icc 1 n := by
    ext v
    simpa using h v
  exact Finset.injOn_of_card_image_eq (by rw [himage, Nat.card_Icc, Finset.card_range, Nat.add_sub_cancel])

theorem keyValid_iff_values :
    KeyValid n key ↔ 1 ≤ n ∧ ∀ v, (∃ c < n, keyVal key c = v) ↔ 1 ≤ v ∧ v ≤ n := by
  constructor
  · intro hk
    refine ⟨hk.1, fun v => ⟨?_, fun ⟨h1, hn⟩ => exists_column hk h1 hn⟩⟩
    rintro ⟨c, hc, rfl⟩
    exact hk.2.1 c hc
  · rintro ⟨hn, h⟩
    refine ⟨hn, fun c hc => (h _).1 ⟨c, hc, rfl⟩, fun c hc d hd hne he => hne ?_⟩
    exact keyVal_injOn_of_values h (by simpa using hc) (by simpa using hd) he

theorem KeyValid.congr (hk : KeyValid n key) (h : ∀ c < n, keyVal key c = keyVal key' c) : KeyValid n key' := by
  obtain ⟨hn, hrange, hne⟩ := hk
  refine ⟨hn, fun c hc => h c hc ▸ hrange c hc, fun c hc d hd hcd => ?_⟩
  rw [← h c hc, ← h d hd]
  exact hne c hc d hd hcd

theorem keyValid_congr (h : ∀ c < n, keyVal key c = keyVal key' c) : KeyValid n key ↔ KeyValid n key' :=
  ⟨fun hk => hk.congr h, fun hk => hk.congr fun c hc => (h c hc).symm⟩

/-! ### The index maps (R55, 40_permute.md) -/

theorem existsUnique_cell_rowMajor {p : Nat} (hp : p < n * rows) :
    ∃! cell : Nat × Nat, (cell.1 < n ∧ cell.2 < rows) ∧ rowMajor n cell = p := by
  obtain ⟨cell, hcell, rfl⟩ := exists_cell_rowMajor hp
  exact ⟨cell, ⟨hcell, rfl⟩, fun _ ⟨hx, he⟩ => rowMajor_inj hx.1 hcell.1 he⟩

theorem existsUnique_cell_colMajor (hk : KeyValid n key) {p : Nat} (hp : p < n * rows) :
    ∃! cell : Nat × Nat, (cell.1 < n ∧ cell.2 < rows) ∧ colMajor key rows cell = p := by
  obtain ⟨cell, hcell, rfl⟩ := exists_cell_colMajor hk hp
  exact ⟨cell, ⟨hcell, rfl⟩, fun _ ⟨hx, he⟩ => colMajor_inj hk hx hcell he⟩

theorem colMajor_congr (h : ∀ c < n, keyVal key c = keyVal key' c) {cell : Nat × Nat} (hc : cell.1 < n) :
    colMajor key rows cell = colMajor key' rows cell := by
  rw [colMajor, colMajor, h _ hc]

/-! ### Where the transforms put each cell (R53, R54, 40_permute.md) -/

theorem symAt_enc_cell (inp : List Sym) (hk : KeyValid n key) (hn : l % n = 0) {c r : Nat} (hc : c < n)
    (hr : r < l / n) : symAt (enc n l key inp) ((keyVal key c - 1) * (l / n) + r) = symAt inp (r * n + c) := by
  have h := symAt_enc inp hk (cell := (c, r)) hc hr
  rwa [Nat.mul_div_cancel' (Nat.dvd_of_mod_eq_zero hn)] at h

theorem symAt_dec_cell (inp : List Sym) (hk : KeyValid n key) (hn : l % n = 0) {c r : Nat} (hc : c < n)
    (hr : r < l / n) : symAt (dec n l key inp) (r * n + c) = symAt inp ((keyVal key c - 1) * (l / n) + r) := by
  have h := symAt_dec inp hk (cell := (c, r)) hc hr
  rwa [Nat.mul_div_cancel' (Nat.dvd_of_mod_eq_zero hn)] at h

/-- R53's closed form: the position j is row j mod R of the column whose key value is j / R + 1. -/
theorem symAt_enc_closedForm (inp : List Sym) (hk : KeyValid n key) (hn : l % n = 0) {j : Nat} (hj : j < l) :
    ∃ c < n, keyVal key c = j / (l / n) + 1 ∧ symAt (enc n l key inp) j = symAt inp (j % (l / n) * n + c) := by
  have hj' : j < n * (l / n) := by rwa [Nat.mul_div_cancel' (Nat.dvd_of_mod_eq_zero hn)]
  obtain ⟨⟨c, r⟩, ⟨hc, hr⟩, rfl⟩ := exists_cell_colMajor hk hj'
  simp only [colMajor] at hc hr ⊢
  have hv := hk.2.1 c hc
  refine ⟨c, hc, ?_, ?_⟩
  · rw [Nat.mul_comm, Nat.mul_add_div (by omega), Nat.div_eq_of_lt hr]
    omega
  · rw [symAt_enc_cell inp hk hn hc hr, Nat.mul_add_mod_of_lt hr]

/-! ### The corner cases (R55, R63, 40_permute.md) -/

theorem enc_zero (n : Nat) (key : List KeyWord) (inp : List Sym) : enc n 0 key inp = [] :=
  List.eq_nil_of_length_eq_zero (length_enc ..)

theorem dec_zero (n : Nat) (key : List KeyWord) (inp : List Sym) : dec n 0 key inp = [] :=
  List.eq_nil_of_length_eq_zero (length_dec ..)

/-- With one column, which has the key value 1, both indices of row p are p. -/
theorem symAt_one_column (inp : List Sym) (hk : KeyValid 1 key) {p : Nat} (hp : p < l) :
    symAt (enc 1 l key inp) p = symAt inp p ∧ symAt (dec 1 l key inp) p = symAt inp p := by
  have hv : keyVal key 0 = 1 := by have := hk.2.1 0 one_pos; omega
  have hr : p < l / 1 := by rwa [Nat.div_one]
  have henc := symAt_enc_cell inp hk (Nat.mod_one l) one_pos hr
  have hdec := symAt_dec_cell inp hk (Nat.mod_one l) one_pos hr
  simp only [hv, Nat.sub_self, Nat.zero_mul, Nat.zero_add, Nat.mul_one, Nat.add_zero] at henc hdec
  exact ⟨henc, hdec⟩

theorem enc_eq_dec_of_one_column (l : Nat) (inp : List Sym) (hk : KeyValid 1 key) :
    enc 1 l key inp = dec 1 l key inp := by
  refine ext_symAt (by simp) fun p hp => ?_
  obtain ⟨henc, hdec⟩ := symAt_one_column inp hk (length_enc .. ▸ hp)
  rw [henc, hdec]

/-- With one row, the column-major index of column c is KEY[c] − 1 and the row-major index is c. -/
theorem symAt_one_row (inp : List Sym) (hk : KeyValid n key) {c : Nat} (hc : c < n) :
    symAt (enc n n key inp) (keyVal key c - 1) = symAt inp c ∧
      symAt (dec n n key inp) c = symAt inp (keyVal key c - 1) := by
  have hr : 0 < n / n := by rw [Nat.div_self hk.1]; exact one_pos
  have henc := symAt_enc_cell inp hk (Nat.mod_self n) hc hr
  have hdec := symAt_dec_cell inp hk (Nat.mod_self n) hc hr
  simp only [Nat.div_self hk.1, Nat.mul_one, Nat.add_zero, Nat.zero_mul, Nat.zero_add] at henc hdec
  exact ⟨henc, hdec⟩

theorem enc_eq_dec_of_one_row (inp : List Sym) (hk : KeyValid n key)
    (hinvol : ∀ c < n, keyVal key (keyVal key c - 1) = c + 1) : enc n n key inp = dec n n key inp := by
  refine ext_symAt (by simp) fun p hp => ?_
  rw [length_enc] at hp
  obtain ⟨c, hc, hv⟩ := exists_column hk (v := p + 1) (by omega) (by omega)
  obtain rfl : keyVal key c - 1 = p := by omega
  rw [(symAt_one_row inp hk hc).1, (symAt_one_row inp hk hp).2, hinvol c hc, Nat.add_sub_cancel]

/-- The key that gives column c the value c + 1. -/
theorem keyValid_of_identity (hn : 1 ≤ n) (hid : ∀ c < n, keyVal key c = c + 1) : KeyValid n key := by
  refine ⟨hn, fun c hc => ?_, fun c hc d hd hne => ?_⟩
  · have := hid c hc
    omega
  · rw [hid c hc, hid d hd]
    omega

/-- On a square with the identity key, the column-major index of a cell is the row-major index of its mirror image. -/
theorem symAt_square (inp : List Sym) (hn : 1 ≤ n) (hid : ∀ c < n, keyVal key c = c + 1) {c r : Nat} (hc : c < n)
    (hr : r < n) :
    symAt (enc n (n * n) key inp) (c * n + r) = symAt inp (r * n + c) ∧
      symAt (dec n (n * n) key inp) (c * n + r) = symAt inp (r * n + c) := by
  have hk := keyValid_of_identity hn hid
  have henc := symAt_enc inp hk (cell := (c, r)) hc hr
  have hdec := symAt_dec inp hk (cell := (r, c)) hr hc
  simp only [colMajor, rowMajor, hid c hc, hid r hr, Nat.add_sub_cancel] at henc hdec
  exact ⟨henc, hdec⟩

theorem enc_eq_dec_of_square (inp : List Sym) (hn : 1 ≤ n) (hid : ∀ c < n, keyVal key c = c + 1) :
    enc n (n * n) key inp = dec n (n * n) key inp := by
  refine ext_symAt (by simp) fun p hp => ?_
  obtain ⟨⟨r, c⟩, ⟨hr, hc⟩, rfl⟩ := exists_cell_rowMajor (length_enc .. ▸ hp)
  obtain ⟨henc, hdec⟩ := symAt_square inp hn hid hc hr
  exact henc.trans hdec.symm

/-! ### The transforms undo each other (R62, R63, 40_permute.md) -/

theorem symAt_take {p : Nat} (hp : p < l) : symAt (inp.take l) p = symAt inp p := by
  rw [symAt, symAt, List.getD_eq_getElem?_getD, List.getElem?_take_of_lt hp, List.getD_eq_getElem?_getD]

/-- A result of length L is the first L symbols of `inp` where it agrees with them. -/
theorem eq_take_of_symAt {ys : List Sym} (hys : ys.length = l) (hl : l ≤ inp.length)
    (h : ∀ p < l, symAt ys p = symAt inp p) : ys = inp.take l := by
  refine ext_symAt (by rw [hys, List.length_take_of_le hl]) fun p hp => ?_
  rw [hys] at hp
  rw [symAt_take hp, h p hp]

theorem dec_enc (hk : KeyValid n key) (hn : l % n = 0) (hl : l ≤ inp.length) :
    dec n l key (enc n l key inp) = inp.take l := by
  obtain ⟨rows, rfl⟩ := Nat.dvd_of_mod_eq_zero hn
  refine eq_take_of_symAt (length_dec ..) hl fun p hp => ?_
  obtain ⟨cell, ⟨hc, hr⟩, rfl⟩ := exists_cell_rowMajor hp
  rw [symAt_dec _ hk hc hr, symAt_enc _ hk hc hr]

theorem enc_dec (hk : KeyValid n key) (hn : l % n = 0) (hl : l ≤ inp.length) :
    enc n l key (dec n l key inp) = inp.take l := by
  obtain ⟨rows, rfl⟩ := Nat.dvd_of_mod_eq_zero hn
  refine eq_take_of_symAt (length_enc ..) hl fun p hp => ?_
  obtain ⟨cell, ⟨hc, hr⟩, rfl⟩ := exists_cell_colMajor hk hp
  rw [symAt_enc _ hk hc hr, symAt_dec _ hk hc hr]

/-! ### The transforms only reorder (R55, 40_permute.md) -/

theorem nodup_cells (n rows : Nat) : (cells n rows).Nodup :=
  List.Nodup.product List.nodup_range List.nodup_range

/-- A one-to-one index map into [0, n·R) lists these positions in another order. -/
theorem map_cells_perm_range {ix : Nat × Nat → Nat} (hlt : ∀ x ∈ cells n rows, ix x < n * rows)
    (hinj : ∀ x ∈ cells n rows, ∀ y ∈ cells n rows, ix x = ix y → x = y) :
    ((cells n rows).map ix).Perm (List.range (n * rows)) := by
  have hnodup : ((cells n rows).map ix).Nodup := (nodup_cells n rows).map_on hinj
  refine (List.perm_ext_iff_of_nodup hnodup List.nodup_range).2 fun p => ?_
  rw [List.mem_map, List.mem_range]
  constructor
  · rintro ⟨x, hx, rfl⟩
    exact hlt x hx
  · intro hp
    obtain ⟨cell, hcell, he⟩ := exists_cell_of_injOn hlt hinj hp
    exact ⟨cell, mem_cells.2 hcell, he⟩

theorem map_rowMajor_perm (n rows : Nat) : ((cells n rows).map (rowMajor n)).Perm (List.range (n * rows)) :=
  map_cells_perm_range (fun _ hx => rowMajor_lt (mem_cells.1 hx).1 (mem_cells.1 hx).2)
    fun _ hx _ hy => rowMajor_inj (mem_cells.1 hx).1 (mem_cells.1 hy).1

theorem map_colMajor_perm (hk : KeyValid n key) (rows : Nat) :
    ((cells n rows).map (colMajor key rows)).Perm (List.range (n * rows)) :=
  map_cells_perm_range (fun _ hx => colMajor_lt hk (mem_cells.1 hx).1 (mem_cells.1 hx).2)
    fun _ hx _ hy => colMajor_inj hk (mem_cells.1 hx) (mem_cells.1 hy)

/-- Symbols moved from one ordering of the positions to another are the same symbols. -/
theorem perm_take_of_moves {cs : List (Nat × Nat)} {dst src : Nat × Nat → Nat} {ys : List Sym}
    (hdst : (cs.map dst).Perm (List.range l)) (hsrc : (cs.map src).Perm (List.range l)) (hys : ys.length = l)
    (hl : l ≤ inp.length) (hmove : ∀ x ∈ cs, symAt ys (dst x) = symAt inp (src x)) : ys.Perm (inp.take l) := by
  have hmoves : (cs.map dst).map (symAt ys) = (cs.map src).map (symAt inp) := by
    rw [List.map_map, List.map_map]
    exact List.map_congr_left hmove
  calc
    ys = (List.range l).map (symAt ys) := by rw [map_symAt_range hys.ge, ← hys, List.take_length]
    List.Perm _ ((cs.map dst).map (symAt ys)) := (hdst.map _).symm
    List.Perm _ ((List.range l).map (symAt inp)) := hmoves ▸ hsrc.map _
    _ = inp.take l := map_symAt_range hl

theorem enc_perm_take (hk : KeyValid n key) (hn : l % n = 0) (hl : l ≤ inp.length) :
    (enc n l key inp).Perm (inp.take l) := by
  obtain ⟨rows, rfl⟩ := Nat.dvd_of_mod_eq_zero hn
  exact perm_take_of_moves (map_colMajor_perm hk rows) (map_rowMajor_perm n rows) (length_enc ..) hl
    fun x hx => symAt_enc inp hk (mem_cells.1 hx).1 (mem_cells.1 hx).2

theorem dec_perm_take (hk : KeyValid n key) (hn : l % n = 0) (hl : l ≤ inp.length) :
    (dec n l key inp).Perm (inp.take l) := by
  obtain ⟨rows, rfl⟩ := Nat.dvd_of_mod_eq_zero hn
  exact perm_take_of_moves (map_rowMajor_perm n rows) (map_colMajor_perm hk rows) (length_dec ..) hl
    fun x hx => symAt_dec inp hk (mem_cells.1 hx).1 (mem_cells.1 hx).2

/-! ### The transforms read KEY[0 … n−1] and IN[0 … L−1] only (R66, 40_permute.md) -/

theorem enc_congr (hk : KeyValid n key) (hn : l % n = 0) (hkey : ∀ c < n, keyVal key c = keyVal key' c)
    (hinp : ∀ p < l, symAt inp p = symAt inp' p) : enc n l key inp = enc n l key' inp' := by
  obtain ⟨rows, rfl⟩ := Nat.dvd_of_mod_eq_zero hn
  refine ext_symAt (by simp) fun p hp => ?_
  obtain ⟨cell, ⟨hc, hr⟩, rfl⟩ := exists_cell_colMajor hk (length_enc .. ▸ hp)
  rw [symAt_enc _ hk hc hr, colMajor_congr hkey hc, symAt_enc _ (hk.congr hkey) hc hr, hinp _ (rowMajor_lt hc hr)]

theorem dec_congr (hk : KeyValid n key) (hn : l % n = 0) (hkey : ∀ c < n, keyVal key c = keyVal key' c)
    (hinp : ∀ p < l, symAt inp p = symAt inp' p) : dec n l key inp = dec n l key' inp' := by
  obtain ⟨rows, rfl⟩ := Nat.dvd_of_mod_eq_zero hn
  refine ext_symAt (by simp) fun p hp => ?_
  obtain ⟨cell, ⟨hc, hr⟩, rfl⟩ := exists_cell_rowMajor (length_dec .. ▸ hp)
  rw [symAt_dec _ hk hc hr, symAt_dec _ (hk.congr hkey) hc hr, ← colMajor_congr hkey hc,
    hinp _ (colMajor_lt hk hc hr)]

theorem transform_congr (i : Instr) (hk : KeyValid n key) (hn : l % n = 0)
    (hkey : ∀ c < n, keyVal key c = keyVal key' c) (hinp : ∀ p < l, symAt inp p = symAt inp' p) :
    i.transform n l key inp = i.transform n l key' inp' := by
  cases i with
  | encode => exact enc_congr hk hn hkey hinp
  | decode => exact dec_congr hk hn hkey hinp

end Transforms

/-! ### What a command leaves (R59 to R61, 40_permute.md) -/

section Commands

variable {c c' : Config} {b b' : Block}

/-- On legal operands OUT is the transform's result and then zeros, as the transform is beyond its end. -/
theorem symAt_out_of_operandsLegal (h : b.OperandsLegal c) (i : Instr) (p : Nat) :
    symAt (b.runTransform c i.transform).out p = symAt (i.transform b.n b.textLen b.key b.inp) p := by
  rw [symAt_runTransform_out]
  by_cases hp : p < b.textLen
  · rw [if_pos ⟨(operandError_eq_none_iff c b).2 h, hp⟩]
  · rw [if_neg fun hand => hp hand.2, symAt_of_length_le (by rw [length_transform]; exact not_lt.1 hp)]

theorem length_out_of_operandsLegal (h : b.OperandsLegal c) (i : Instr) :
    (b.runTransform c i.transform).out.length = c.lMax := by
  rw [runTransform_of_operandsLegal h, Block.cmdSuccess_out, length_writePrefix, List.length_replicate]
  obtain ⟨-, hL, -⟩ := h
  rwa [length_transform, List.length_replicate]

theorem take_out_of_operandsLegal (h : b.OperandsLegal c) (i : Instr) :
    (b.runTransform c i.transform).out.take b.textLen = i.transform b.n b.textLen b.key b.inp := by
  rw [runTransform_of_operandsLegal h, Block.cmdSuccess_out, writePrefix]
  exact List.take_left' (length_transform ..)

/-- What a command does, in every state: it completes, writes its outputs only, and leaves the first failing check's
code and no output, or, on legal operands, the transform's result. -/
theorem exec_result (i : Instr) (s : State) :
    ∃ t, exec i s = .next t ∧ OnlyOutputsDiffer s t ∧ t.blk.done = true ∧ t.blk.err = operandCode s.cfg s.blk ∧
      (t.blk.err ≠ errNone → t.blk.out = List.replicate s.cfg.lMax 0#5 ∧ t.blk.outlen = 0#16) ∧
      (t.blk.err = errNone → s.blk.OperandsLegal s.cfg ∧ t.blk.outlen = s.blk.len ∧ t.blk.out.length = s.cfg.lMax ∧
        ∀ p, symAt t.blk.out p = symAt (i.transform s.blk.n s.blk.textLen s.blk.key s.blk.inp) p) := by
  refine ⟨_, exec_eq_runTransform i s, ⟨rfl, rfl, rfl, runTransform_sameInputs ..⟩, runTransform_done ..,
    runTransform_err .., ?_, ?_⟩
  · simp only [State.withBlk_blk, runTransform_err, ne_eq, operandError_eq_none_iff]
    intro h
    rw [runTransform_of_not_operandsLegal h]
    exact ⟨rfl, rfl⟩
  · simp only [State.withBlk_blk, runTransform_err]
    intro hnone
    have h := (operandError_eq_none_iff _ _).1 hnone
    exact ⟨h, by rw [runTransform_outlen, if_pos hnone], length_out_of_operandsLegal h i, symAt_out_of_operandsLegal h i⟩

/-- With one column or no text, Enc and Dec agree, and so do the commands (R61, 40_permute.md). -/
theorem exec_encode_eq_exec_decode {s : State} (h : s.blk.keylen = 1#8 ∨ s.blk.len = 0#16) :
    exec .encode s = exec .decode s := by
  rw [exec_eq_runTransform, exec_eq_runTransform]
  by_cases hlegal : s.blk.OperandsLegal s.cfg
  · have hsame : enc s.blk.n s.blk.textLen s.blk.key s.blk.inp = dec s.blk.n s.blk.textLen s.blk.key s.blk.inp := by
      obtain ⟨-, -, hk, -⟩ := hlegal
      rcases h with h | h
      · have hn : s.blk.n = 1 := by rw [Block.n, h]; rfl
        rw [hn] at hk ⊢
        exact enc_eq_dec_of_one_column _ _ hk
      · have hL : s.blk.textLen = 0 := by rw [Block.textLen, h]; rfl
        rw [hL, enc_zero, dec_zero]
    rw [runTransform_of_operandsLegal hlegal, runTransform_of_operandsLegal hlegal, Instr.transform, Instr.transform,
      hsame]
  · rw [runTransform_of_not_operandsLegal hlegal, runTransform_of_not_operandsLegal hlegal]

/-- RANGE comes first, whatever the key (R56, R59, 40_permute.md). -/
theorem operandError_of_nMax_lt (h : c.nMax < b.n) : operandError c b = errRange := if_pos (.inl h)

/-! ### The operands a command depends on (R66, 40_permute.md; R74, 60_exceptions.md) -/

/-- The same parameters N_MAX and L_MAX, the same KEYLEN and LEN, and the same KEY[0 … n−1] and IN[0 … L−1]. -/
structure SameOperands (c c' : Config) (b b' : Block) : Prop where
  nMax : c.nMax = c'.nMax
  lMax : c.lMax = c'.lMax
  keylen : b.keylen = b'.keylen
  len : b.len = b'.len
  key : ∀ col < b.n, keyVal b.key col = keyVal b'.key col
  inp : ∀ p < b.textLen, symAt b.inp p = symAt b'.inp p

theorem SameOperands.n_eq (h : SameOperands c c' b b') : b.n = b'.n := congrArg BitVec.toNat h.keylen

theorem SameOperands.textLen_eq (h : SameOperands c c' b b') : b.textLen = b'.textLen := congrArg BitVec.toNat h.len

theorem SameOperands.keyValid_iff (h : SameOperands c c' b b') : KeyValid b.n b.key ↔ KeyValid b'.n b'.key := by
  rw [← h.n_eq]
  exact keyValid_congr h.key

theorem SameOperands.operandError_eq (h : SameOperands c c' b b') : operandError c b = operandError c' b' := by
  have hkey := h.keyValid_iff
  rw [h.n_eq] at hkey
  simp only [operandError, h.nMax, h.lMax, h.n_eq, h.textLen_eq, hkey]

theorem SameOperands.operandsLegal_iff (h : SameOperands c c' b b') : b.OperandsLegal c ↔ b'.OperandsLegal c' := by
  rw [← operandError_eq_none_iff, h.operandError_eq, operandError_eq_none_iff]

theorem SameOperands.transform_eq (h : SameOperands c c' b b') (hlegal : b.OperandsLegal c) (i : Instr) :
    i.transform b.n b.textLen b.key b.inp = i.transform b'.n b'.textLen b'.key b'.inp := by
  obtain ⟨-, -, hk, hn⟩ := hlegal
  rw [← h.n_eq, ← h.textLen_eq]
  exact transform_congr i hk hn h.key h.inp

theorem SameOperands.sameOutputs (h : SameOperands c c' b b') (i : Instr) :
    (b.runTransform c i.transform).SameOutputs (b'.runTransform c' i.transform) := by
  by_cases hlegal : b.OperandsLegal c
  · rw [runTransform_of_operandsLegal hlegal, runTransform_of_operandsLegal (h.operandsLegal_iff.1 hlegal),
      ← h.transform_eq hlegal i]
    exact ⟨rfl, rfl, h.len.symm, by rw [Block.cmdSuccess_out, Block.cmdSuccess_out, h.lMax]⟩
  · rw [runTransform_of_not_operandsLegal hlegal,
      runTransform_of_not_operandsLegal fun hlegal' => hlegal (h.operandsLegal_iff.2 hlegal')]
    exact ⟨rfl, h.operandError_eq.symm, rfl, by rw [Block.cmdError_out, Block.cmdError_out, h.lMax]⟩

/-! ### ENCODE, COPYBACK L, DECODE at the block (R62, 40_permute.md) -/

/-- Accesses that run from the block of `s`, as the run that the host makes from `s`. -/
theorem RunsTo.exists_run {es : List HostEvent} {rs : List Response} (h : RunsTo c b es b' rs) {s : State}
    (hc : s.cfg = c) (hb : s.blk = b) :
    ∃ t, Host.Core.run core es.length { s with pending := es } = .next t ∧ t.cfg = c ∧ t.blk = b' := by
  subst hc hb
  exact ⟨_, h.run, rfl, rfl⟩

theorem runsTo_command (c : Config) (b : Block) (i : Instr) :
    RunsTo c b [HostOp.event c (.command i)] (b.runTransform c i.transform) [.written] := by
  rintro s rfl rfl rest hp
  exact run_succ (step_cmdWrite (decodeWord_encodeWord i) hp)

/-- The block after ENCODE and then COPYBACK L. -/
def Block.encodeCopyBack (c : Config) (b : Block) : Block :=
  (b.runTransform c enc).loadInpPrefix ((b.runTransform c enc).out.take b.textLen)

theorem encodeCopyBack_eq (h : b.OperandsLegal c) :
    b.encodeCopyBack c = (b.cmdSuccess c (enc b.n b.textLen b.key b.inp)).loadInpPrefix
      (enc b.n b.textLen b.key b.inp) := by
  have hout : (b.runTransform c enc).out.take b.textLen = enc b.n b.textLen b.key b.inp :=
    take_out_of_operandsLegal h .encode
  rw [Block.encodeCopyBack, hout, runTransform_of_operandsLegal h]

theorem encodeCopyBack_operandsLegal (h : b.OperandsLegal c) : (b.encodeCopyBack c).OperandsLegal c := by
  rw [encodeCopyBack_eq h]
  exact h

/-- DECODE reads L symbols of IN, which are Enc's result, so that what follows them in IN does not matter. -/
theorem take_out_decode_encodeCopyBack (hb : b.Sized c) (h : b.OperandsLegal c) :
    ((b.encodeCopyBack c).runTransform c dec).out.take b.textLen = b.inp.take b.textLen := by
  have hdecode := take_out_of_operandsLegal (encodeCopyBack_operandsLegal h) .decode
  rw [encodeCopyBack_eq h] at hdecode ⊢
  obtain ⟨-, hL, hk, hn⟩ := h
  obtain ⟨-, hinp, -⟩ := hb
  refine hdecode.trans ?_
  calc dec b.n b.textLen b.key (writePrefix b.inp (enc b.n b.textLen b.key b.inp))
    _ = dec b.n b.textLen b.key (enc b.n b.textLen b.key b.inp) :=
      dec_congr hk hn (fun _ _ => rfl) fun p hp => by rw [symAt_writePrefix, length_enc, if_pos hp]
    _ = b.inp.take b.textLen := dec_enc hk hn (hL.trans_eq hinp.symm)

/-- The accesses of COPYBACK L at the block that ENCODE left. -/
theorem runsTo_encodeCopyBack (hc : c.Wf) (hb : b.Sized c) (h : b.OperandsLegal c) :
    ∃ rs, RunsTo c (b.runTransform c enc)
      ((copyBack (b.runTransform c enc) b.textLen).map (HostOp.event c)) (b.encodeCopyBack c) rs := by
  obtain ⟨-, hL, -⟩ := h
  exact ⟨_, runsTo_copyBack hc (runTransform_sized length_enc hb) hL⟩

end Commands

end Sys2Proof.Machine

namespace Sys2Proof.Proofs

open Sys2Proof.Machine Sys2Proof.Claims

/-- Settles O17: the column-major and row-major indices undo each other; at the block, COPYBACK puts Enc's result where
DECODE reads. -/
theorem decodeInvertsEncode : Obligations.DecodeInvertsEncode := by
  constructor
  · rintro n l key t hk hn rfl
    rw [dec_enc hk hn le_rfl, List.take_length]
  · rintro s ⟨hc, hb⟩ hlegal
    obtain ⟨rs, hcopy⟩ := runsTo_encodeCopyBack hc hb hlegal
    obtain ⟨t, ht, htcfg, htblk⟩ := (runsTo_command s.cfg s.blk .encode).exists_run rfl rfl
    obtain ⟨u, hu, hucfg, hublk⟩ := hcopy.exists_run htcfg htblk
    obtain ⟨v, hv, -, hvblk⟩ := (runsTo_command s.cfg _ .decode).exists_run hucfg hublk
    rw [List.length_map, length_copyBack] at hu
    refine ⟨t, u, v, ht, htblk ▸ hu, hv, ?_, ?_⟩
    · rw [hvblk, runTransform_err]
      exact (operandError_eq_none_iff _ _).2 (encodeCopyBack_operandsLegal hlegal)
    · rw [hvblk]
      exact take_out_decode_encodeCopyBack hb hlegal

/-- Settles O9: what ENCODE does in every state, and where Enc puts each cell. -/
theorem encodeEmitsColumnsInKeyOrder : Obligations.EncodeEmitsColumnsInKeyOrder := by
  refine ⟨rfl, by decide, fun s => ?_⟩
  obtain ⟨t, hexec, hframe, hdone, herr, hfail, hok⟩ := exec_result .encode s
  refine ⟨t, hexec, hframe, hdone, herr, hfail, fun hnone => ?_⟩
  obtain ⟨⟨-, -, hk, hn⟩, houtlen, hlen, hout⟩ := hok hnone
  refine ⟨houtlen, hlen, fun i hi => ?_, fun c hc r hr => ?_⟩
  · rw [hout, symAt_of_length_le (by rwa [length_transform])]
  · rw [hout]
    exact symAt_enc_cell s.blk.inp hk hn hc hr

/-- Settles O10: what DECODE does in every state, and where Dec puts each cell. -/
theorem decodeReassemblesRows : Obligations.DecodeReassemblesRows := by
  refine ⟨rfl, by decide, fun s => ?_⟩
  obtain ⟨t, hexec, hframe, hdone, herr, hfail, hok⟩ := exec_result .decode s
  refine ⟨t, hexec, fun h => (exec_encode_eq_exec_decode h).trans hexec, hframe, hdone, herr, hfail, fun hnone => ?_⟩
  obtain ⟨⟨-, -, hk, hn⟩, houtlen, hlen, hout⟩ := hok hnone
  refine ⟨houtlen, hlen, fun i hi => ?_, fun c hc r hr => ?_⟩
  · rw [hout, symAt_of_length_le (by rwa [length_transform])]
  · rw [hout]
    exact symAt_dec_cell s.blk.inp hk hn hc hr

/-- Settles O11: the closed form reads the column-major index back as a column and a row. -/
theorem encMatchesItsClosedForm : Obligations.EncMatchesItsClosedForm := by
  intro n l key inp hk hn
  refine ⟨length_enc .., fun c hc r hr => symAt_enc_cell inp hk hn hc hr,
    fun _ j hj => symAt_enc_closedForm inp hk hn hj, ?_⟩
  rintro rfl
  exact enc_zero n key inp

/-- Settles O12: group i is the column whose key value is i + 1, which a valid key has. -/
theorem decSplitsIntoGroups : Obligations.DecSplitsIntoGroups := by
  intro n l key inp hk hn
  refine ⟨length_dec .., fun c hc r hr => symAt_dec_cell inp hk hn hc hr, fun i hi => ?_⟩
  obtain ⟨c, hc, hv⟩ := exists_column hk (v := i + 1) (by omega) (by omega)
  refine ⟨c, hc, hv, fun r hr => ?_⟩
  rw [symAt_dec_cell inp hk hn hc hr, hv, Nat.add_sub_cancel]

/-- Settles O13: n columns take all of 1 … n exactly where each takes one and no two the same; RANGE is checked first. -/
theorem keyValidMeansPermutation : Obligations.KeyValidMeansPermutation := by
  refine ⟨fun _ _ => Iff.rfl, fun _ _ => keyValid_iff_values, fun _ _ _ => keyValid_congr, by decide, by decide,
    by decide, fun i s key h => ?_⟩
  exact ⟨_, exec_eq_runTransform i _, (runTransform_err ..).trans (operandError_of_nMax_lt h)⟩

/-- Settles O14: both indices are one-to-one from the n·R cells onto the positions; the corner cases are the cells with
no row, one column and one row. -/
theorem indexMapsCoverEachPositionOnce : Obligations.IndexMapsCoverEachPositionOnce := by
  intro n rows key hk
  refine ⟨fun c hc r hr => ⟨?_, ?_⟩, fun p hp => existsUnique_cell_rowMajor hp,
    fun p hp => existsUnique_cell_colMajor hk hp, fun inp => ⟨enc_zero n key inp, dec_zero n key inp⟩, ?_,
    fun inp c hc => symAt_one_row inp hk hc⟩
  · exact rowMajor_lt (cell := (c, r)) hc hr
  · exact colMajor_lt (cell := (c, r)) hk hc hr
  · rintro rfl inp p hp
    exact symAt_one_column inp hk hp

/-- Settles O15: the cells list the positions once by their column-major and once by their row-major index. -/
theorem transformsReorderTheSymbols : Obligations.TransformsReorderTheSymbols :=
  fun _ _ _ _ hk hn hl => ⟨enc_perm_take hk hn hl, dec_perm_take hk hn hl⟩

/-- Settles O18: the indices undo each other; on one row with the key (2, 3, 1), which is no involution, Enc and Dec
differ. -/
theorem encodeInvertsDecode : Obligations.EncodeInvertsDecode := by
  refine ⟨?_, ⟨3, 3, [2#8, 3#8, 1#8], [0#5, 1#5, 2#5], by decide, by decide, by decide⟩,
    fun l key t hk => enc_eq_dec_of_one_column l t hk, fun n key t _ => ?_,
    fun n key t hk hinvol => enc_eq_dec_of_one_row t hk hinvol, fun n key t hn hid => ?_⟩
  · rintro n l key t hk hn rfl
    rw [enc_dec hk hn le_rfl, List.take_length]
  · rw [enc_zero, dec_zero]
  · exact ⟨enc_eq_dec_of_square t hn hid, fun c hc r hr => (symAt_square t hn hid hc hr).1⟩

/-- Settles O19: the checks and the transform read the operands only. -/
theorem outputsDependOnlyOnTheOperands : Obligations.OutputsDependOnlyOnTheOperands := by
  intro i s s' t t' hnMax hlMax hkeylen hlen hkey hinp ht ht'
  rw [exec_eq_runTransform] at ht ht'
  cases ht
  cases ht'
  have h : SameOperands s.cfg s'.cfg s.blk s'.blk := ⟨hnMax, hlMax, hkeylen, hlen, hkey, hinp⟩
  exact h.sameOutputs i

end Sys2Proof.Proofs
end

section
/-! PROOF. O6, O7, O20, O32 and O37, the rules of 60_exceptions.md. A CMD write of any word is one step to the block of
`writtenBlk`, and the result code of R59 says which block that is: where the code is not NONE, the failed block
(`writtenBlk_cmd_failed`). The block is a function of the inputs, so the old result does not matter. -/

namespace Sys2Proof.Machine

open Sys2Proof.Claims (NextIsCmdWrite StepsTo operandCode resultCode failedBlock)

/-! ### The result code (R70, 60_exceptions.md) -/

/-- R70 lists ILLEGAL_CMD first, so its condition is the illegal word's. -/
theorem resultCode_eq_illegal_first (c : Config) (b : Block) (w : Word32) :
    resultCode c b w = if w ≠ 1#32 ∧ w ≠ 2#32 then 3#4 else operandCode c b := by
  simp only [resultCode, ne_eq, ← not_or, ite_not]

theorem resultCode_ne_errNone_iff {c : Config} {b : Block} {w : Word32} :
    resultCode c b w ≠ errNone ↔ (w ≠ 1#32 ∧ w ≠ 2#32) ∨ operandCode c b ≠ errNone := by
  rw [resultCode_eq_illegal_first]
  by_cases hw : w ≠ 1#32 ∧ w ≠ 2#32
  · rw [if_pos hw]
    exact iff_of_true (by decide) (.inl hw)
  · rw [if_neg hw, or_iff_right hw]

/-! ### The CMD write of any word (R69, R70, 60_exceptions.md) -/

/-- A command with a result code other than NONE makes the failed block with that code. -/
theorem writtenBlk_cmd_failed {c : Config} {b b' : Block} {w : Word32} (h : writtenBlk c b w .cmd = some b')
    (hcode : resultCode c b w ≠ errNone) : b' = failedBlock c b (resultCode c b w) := by
  rcases writtenBlk_cmd_result h with ⟨i, rfl, rfl⟩ | ⟨hw, rfl⟩
  · rw [resultCode_encodeWord] at hcode ⊢
    exact if_neg hcode
  · rw [resultCode_illegal c b hw]
    rfl

/-- A CMD write of any word completes in one step, which makes the word's block. -/
theorem exists_stepsTo_cmdWrite {s : State} {w : Word32} {rest : List HostEvent} (hp : NextIsCmdWrite s w rest) :
    ∃ b, writtenBlk s.cfg s.blk w .cmd = some b ∧ StepsTo s rest b .written := by
  obtain ⟨b, hb, -⟩ := execute_eq_writtenBlk w s
  exact ⟨b, hb, stepsTo_cmdWrite hb hp⟩

/-! ### The read of STATUS that is refused (O3, 93_implementation_defined.md) -/

theorem step_read_status_refused {s : State} {rest : List HostEvent} (hc : s.cfg.Wf) (herr : ¬ ErrLegal s.blk.err)
    (hp : s.pending = .read (Reg.status.access s.cfg) :: rest) :
    step s = .refused (.reservedErrCode s.blk.err) := by
  rw [step_cons hp]
  exact perform_read_refused (s.withPending rest) _ herr (accessReg_access hc rfl)

end Sys2Proof.Machine

namespace Sys2Proof.Proofs

open Sys2Proof.Machine Sys2Proof.Claims

/-- Settles O6: the block that a CMD write makes has DONE set and the result code of R59, whose chain is R70's order. -/
theorem commandReportsTheFirstErrorInOrder : Obligations.CommandReportsTheFirstErrorInOrder := by
  intro s rest w hp
  obtain ⟨b, hb, hstep⟩ := exists_stepsTo_cmdWrite hp
  have herr : b.err = if w ≠ 1#32 ∧ w ≠ 2#32 then 3#4 else operandCode s.cfg s.blk :=
    (writtenBlk_cmd_err hb).trans (resultCode_eq_illegal_first s.cfg s.blk w)
  exact ⟨_, hstep, writtenBlk_cmd_done hb, herr⟩

/-- Settles O7: an illegal word or a failing check is a result code other than NONE, which makes the failed block. -/
theorem failedCommandLeavesNoOutput : Obligations.FailedCommandLeavesNoOutput := by
  intro s rest w hp hfail
  obtain ⟨b, hb, hstep⟩ := exists_stepsTo_cmdWrite hp
  have hfailed : b = failedBlock s.cfg s.blk (resultCode s.cfg s.blk w) :=
    writtenBlk_cmd_failed hb (resultCode_ne_errNone_iff.2 hfail)
  rw [hfailed] at hstep
  exact hstep

/-- Settles O20: blocks with the same inputs make the same block, and the rest of the step does not read the block. -/
theorem commandOverwritesTheOldResult : Obligations.CommandOverwritesTheOldResult := by
  intro s rest w b hp hsame
  obtain ⟨b', hb', hstep⟩ := exists_stepsTo_cmdWrite hp
  have hb : writtenBlk s.cfg b w .cmd = some b' := (writtenBlk_cmd_of_sameInputs w hsame).trans hb'
  exact ⟨_, hstep, stepsTo_cmdWrite (s := s.withBlk b) hb hp⟩

/-- Settles O32: the word read at offset 4 reaches STATUS, and the codes 5 to 15 are not legal. -/
theorem reservedErrorCodeReadIsRefused : Obligations.ReservedErrorCodeReadIsRefused := by
  intro s rest hcode hp hc
  exact step_read_status_refused hc (Nat.not_le_of_lt hcode) hp

/-- Settles O37: a step with nothing pending keeps the state. -/
theorem idleBlockHoldsItsState : Obligations.IdleBlockHoldsItsState := step_nil

end Sys2Proof.Proofs
end

section
/-! PROOF. O23, O34, O38, O39 and O44, the rules of 70_reset_and_hazards.md. A step of the machine with another LAT is
the step with the outcome's LAT replaced (`step_withLat`). Writes to different input registers commute on the block
(`writtenBlk_comm`). Each pending event is taken in one step that keeps the invariant, so a run takes them all
(`run_all_pending`). -/

namespace Sys2Proof.Machine

open Sys2Proof.Claims (IsAccess StepsTo withLat)

/-! ### Reset (R82, R83, 70_reset_and_hazards.md) -/

theorem step_reset {s : State} {rest : List HostEvent} (hp : s.pending = .reset :: rest) :
    step s = .next { s with pending := rest, blk := Block.atReset s.cfg } := step_cons hp

theorem step_resetDuringCmd {s : State} {w : Word32} {rest : List HostEvent}
    (hp : s.pending = .resetDuringCmd w :: rest) :
    StepsTo s rest (Block.atReset s.cfg) (.fault (.abandonedByReset s.cfg.resetResp)) := step_cons hp

/-! ### LAT (R91, 70_reset_and_hazards.md) -/

/-- The outcome with another LAT in its next state. -/
def outcomeWithLat (l : Nat) : Host.Outcome State Fault Refusal → Host.Outcome State Fault Refusal
  | .next t => .next (withLat l t)
  | .fault r => .fault r
  | .refused r => .refused r

theorem readResponse_withLat (l : Nat) (s : State) (a : Access) :
    readResponse (withLat l s).cfg (withLat l s).blk a = readResponse s.cfg s.blk a := rfl

theorem blkAfterWrite_withLat (l : Nat) (s : State) (a : Access) (w : Word32) :
    blkAfterWrite (withLat l s).cfg (withLat l s).blk a w = blkAfterWrite s.cfg s.blk a w := rfl

theorem writeResponse_withLat (l : Nat) (s : State) (a : Access) (w : Word32) :
    writeResponse (withLat l s).cfg (withLat l s).blk a w = writeResponse s.cfg s.blk a w := rfl

/-- An access that leaves the same block and response with either LAT. -/
theorem step_withLat_of_stepsTo {l : Nat} {s : State} {rest : List HostEvent} {b : Block} {r : Response}
    (h : StepsTo s rest b r) (h' : StepsTo (withLat l s) rest b r) :
    step (withLat l s) = outcomeWithLat l (step s) := by
  rw [h, h']
  rfl

theorem step_withLat (l : Nat) (s : State) : step (withLat l s) = outcomeWithLat l (step s) := by
  rcases hp : s.pending with _ | ⟨e, rest⟩
  · rw [step_nil s hp, step_nil (withLat l s) hp, outcomeWithLat]
  · cases e with
    | read a =>
      by_cases hlegal : ErrLegal s.blk.err ∨ accessReg s.cfg a ≠ some .status
      · have h' := stepsTo_read (s := withLat l s) hp hlegal
        rw [readResponse_withLat] at h'
        exact step_withLat_of_stepsTo (stepsTo_read hp hlegal) h'
      · rw [not_or, not_not] at hlegal
        obtain ⟨herr, hstatus⟩ := hlegal
        rw [step_cons hp, perform_read_refused (s.withPending rest) a herr hstatus,
          step_cons (s := withLat l s) hp, perform_read_refused ((withLat l s).withPending rest) a herr hstatus]
        rfl
    | write a w =>
      have h' := stepsTo_write (s := withLat l s) hp
      rw [blkAfterWrite_withLat, writeResponse_withLat] at h'
      exact step_withLat_of_stepsTo (stepsTo_write hp) h'
    | reset =>
      rw [step_reset hp, step_reset (s := withLat l s) hp]
      rfl
    | resetDuringCmd w =>
      exact step_withLat_of_stepsTo (step_resetDuringCmd hp) (step_resetDuringCmd (s := withLat l s) hp)

/-! ### Input writes (R87, 70_reset_and_hazards.md) -/

theorem exists_writtenBlk (c : Config) (b : Block) (w : Word32) {r : Reg} (hr : r.writable = true) :
    ∃ b', writtenBlk c b w r = some b' := by
  refine Option.ne_none_iff_exists'.1 fun hnone => ?_
  rw [writtenBlk_eq_none_iff.1 hnone] at hr
  cases hr

/-- Writes to two registers but CMD change different elements of the block, or are no writes. -/
theorem writtenBlk_comm (c : Config) (b : Block) (v v' : Word32) {r r' : Reg} (hr : r ≠ .cmd) (hr' : r' ≠ .cmd)
    (hne : r ≠ r') :
    (writtenBlk c b v r).bind (writtenBlk c · v' r') = (writtenBlk c b v' r').bind (writtenBlk c · v r) := by
  cases r with
  | cmd => exact absurd rfl hr
  | keylen =>
    cases r' with
    | cmd => exact absurd rfl hr'
    | keylen => exact absurd rfl hne
    | _ => rfl
  | len =>
    cases r' with
    | cmd => exact absurd rfl hr'
    | len => exact absurd rfl hne
    | _ => rfl
  | key i =>
    cases r' with
    | cmd => exact absurd rfl hr'
    | key j =>
      have hij : i ≠ j := fun h => hne (congrArg Reg.key h)
      simp [writtenBlk, Block.writeKey, List.set_comm _ _ hij]
    | _ => rfl
  | inp i =>
    cases r' with
    | cmd => exact absurd rfl hr'
    | inp j =>
      have hij : i ≠ j := fun h => hne (congrArg Reg.inp h)
      simp [writtenBlk, Block.writeInp, List.set_comm _ _ hij]
    | _ => rfl
  | _ => exact (Option.bind_fun_none _).symm

theorem runsTo_two_writes {c : Config} {b b' b'' : Block} {r r' : Reg} {v v' : Word32} (hc : c.Wf)
    (hr : r.inRange c = true) (hr' : r'.inRange c = true) (hb : writtenBlk c b v r = some b')
    (hb' : writtenBlk c b' v' r' = some b'') :
    RunsTo c b [.write (r.access c) v, .write (r'.access c) v'] b'' [.written, .written] :=
  (runsTo_write hc hr hb).append (runsTo_write hc hr' hb')

/-! ### All pending events (R91, 70_reset_and_hazards.md; R40, 20_memory.md) -/

theorem run_all_pending {s : State} {es : List HostEvent} (hs : s.Inv) (hp : s.pending = es) :
    ∃ t : State, Host.Core.run core es.length s = .next t ∧ t.pending = [] ∧ t.Inv ∧
      t.responses.length = s.responses.length + (es.filter IsAccess).length := by
  induction es generalizing s with
  | nil => exact ⟨s, run_zero s, hp, hs, rfl⟩
  | cons e rest ih =>
    have ⟨_, herr, _⟩ := hs
    obtain ⟨s', rs, hstep, hpending, hresponses, hlen⟩ := exists_step_cons herr hp
    obtain ⟨t, hrun, hempty, hinv, hcount⟩ := ih (step_inv hs hstep) hpending
    have hsplit : (e :: rest).filter IsAccess = [e].filter IsAccess ++ rest.filter IsAccess :=
      List.filter_append [e] rest
    refine ⟨t, (run_succ hstep).trans hrun, hempty, hinv, ?_⟩
    rw [hcount, hresponses, List.length_append, hlen, hsplit, List.length_append, Nat.add_assoc]

end Sys2Proof.Machine

namespace Sys2Proof.Proofs

open Sys2Proof.Machine Sys2Proof.Claims

/-- Settles O23: the step with another LAT is the step with that LAT in its outcome. -/
theorem noStepDependsOnLat : Obligations.NoStepDependsOnLat := by
  intro l s
  constructor
  · intro t h
    rw [step_withLat, h, outcomeWithLat]
  · intro r h
    rw [step_withLat, h, outcomeWithLat]

/-- Settles O34: both orders run to the block that holds both written fields. -/
theorem inputWritesCommute : Obligations.InputWritesCommute := by
  rintro s r r' v v' hc ⟨hr, hw, hcmd⟩ ⟨hr', hw', hcmd'⟩ hne
  obtain ⟨b₁, h₁⟩ := exists_writtenBlk s.cfg s.blk v hw
  obtain ⟨b, h₂⟩ := exists_writtenBlk s.cfg b₁ v' hw'
  have hfirst : (writtenBlk s.cfg s.blk v r).bind (writtenBlk s.cfg · v' r') = some b := by
    rw [h₁, Option.bind_some, h₂]
  rw [writtenBlk_comm s.cfg s.blk v v' hcmd hcmd' hne] at hfirst
  obtain ⟨b₂, h₁', h₂'⟩ := Option.bind_eq_some_iff.1 hfirst
  exact ⟨_, (runsTo_two_writes hc hr hr' h₁ h₂).run, (runsTo_two_writes hc hr' hr h₁' h₂').run⟩

/-- Settles O44: by induction on the pending events. -/
theorem everyAccessResponds : Obligations.EveryAccessResponds := fun _ hs => run_all_pending hs rfl

/-- Settles O38: the reset's step puts in the block at reset, whose elements are all 0. -/
theorem resetClearsEveryElement : Obligations.ResetClearsEveryElement := fun _ _ hp => step_reset hp

/-- Settles O39: both resets put in the block at reset, and the second adds the fault. -/
theorem resetAbandonsTheOutstandingCommand : Obligations.ResetAbandonsTheOutstandingCommand := fun _ _ _ hp =>
  ⟨_, step_reset rfl, step_resetDuringCmd hp⟩

end Sys2Proof.Proofs
end
